-- ==== Sys2Proof/Word.lean ====
section
/-! DEFINITION. The data word of the LavaScript CPU: its two widths (rule R6) and the word type. -/

namespace Sys2Proof

/-- The data word width W, "16 or 64 bits, a system parameter" (R6). -/
inductive Width where
  | w16
  | w64
  deriving DecidableEq, Repr

/-- W as a number of bits (R6). -/
def Width.bits : Width → Nat
  | .w16 => 16
  | .w64 => 64

/-- A W-bit value: register contents, RAM words, ALU operands (R20, R50, R112). -/
abbrev Word (W : Width) := BitVec W.bits

/-- A 16-bit instruction word, for every W (R70). -/
abbrev InstrWord := BitVec 16

/-- The 7-bit comp code `a ++ zx nx zy ny f no` (R72). -/
abbrev CompCode := BitVec 7

end Sys2Proof
end

