-- ==== Sys2Proof/Config.lean ====
section
/-! DEFINITION. The parameters of rule R7, as plain data that State carries and no step changes, and the constants the
model names itself. -/

namespace Sys2Proof

/-- How many words RAM has: 2^16 (R50). -/
def ramSize : Nat := 65536

/-- The value an unwritten register holds behind its mark. DESIGN CHOICE (log 1, unsafe): the spec gives A and D no reset
value (R22). -/
def registerResetValue (W : Width) : Word W := 0#W.bits

/-- What a RAM address that the RAM list does not name reads as. With it every assignment of words to the 65536 addresses
has exactly one canonical list. That `State.reset` starts with an empty list is a DESIGN CHOICE (log 2, unsafe):
`ram0` is OPEN (R35). -/
def unlistedWord (W : Width) : Word W := 0#W.bits

/-- Which 2-bit print code means which print mode (R78, `printCode` of R7). The four codes are different from each other
(log 11), so that every code means exactly one thing. -/
structure PrintCode where
  noPrint : BitVec 2
  print : BitVec 2
  printChar : BitVec 2
  reserved : BitVec 2
  distinct : [noPrint, print, printChar, reserved].Nodup
  deriving DecidableEq, Repr

/-- The spec's assignment: 00 none, 01 PRINT, 10 PRINT_CHAR, 11 reserved (R7, R78). -/
def PrintCode.spec : PrintCode where
  noPrint := 0b00#2
  print := 0b01#2
  printChar := 0b10#2
  reserved := 0b11#2
  distinct := by decide

/-- What a comp code without a mnemonic does (R198, R199). -/
inductive CompDecode where
  | bitRouted
  | canonicalOnly
  deriving DecidableEq, Repr

/-- Which A a role uses: A before the instruction or A after its writes (R144, R212). -/
inductive ASource where
  | preA
  | postA
  deriving DecidableEq, Repr

/-- What the jump condition tests (R210, R211). -/
inductive JumpOperand where
  | postWriteD
  | aluOut
  deriving DecidableEq, Repr

/-- Which value a print event carries (R148). -/
inductive PrintValue where
  | aluOut
  | postWriteD
  deriving DecidableEq, Repr

/-- What reading an unwritten register does: the fault of R22 and R142, or the value the register holds.
`value` is the model's own alternative. DESIGN CHOICE (log 1, unsafe). -/
inductive UninitRead where
  | fault
  | value
  deriving DecidableEq, Repr

/-- The configuration (R7, R33) apart from the ROM and `ram0`, which State holds beside it. -/
structure Config where
  width : Width
  printCode : PrintCode
  compDecode : CompDecode
  mAddrSource : ASource
  jumpTargetSource : ASource
  jumpOperand : JumpOperand
  printValue : PrintValue
  uninitRead : UninitRead
  deriving DecidableEq, Repr

/-- The spec's own configuration: every row of R7 at its own value, and an unwritten register faults when read (R22). -/
def Config.spec : Config where
  width := .w16
  printCode := .spec
  compDecode := .bitRouted
  mAddrSource := .preA
  jumpTargetSource := .postA
  jumpOperand := .postWriteD
  printValue := .aluOut
  uninitRead := .fault

/-- The configuration `State.reset` carries: R7's values, and an unwritten register reads as the value it holds, so that
a program can run from reset. DESIGN CHOICE (log 1, unsafe). -/
def Config.reset : Config := { Config.spec with uninitRead := .value }

end Sys2Proof
end

