-- ==== Sys2Proof/Machine/State.lean ====
section
/-! DEFINITION. The state of the LavaScript CPU (R20–R35), as plain data, and the reasons a step can stop. -/

namespace Sys2Proof.Machine

/-- A general register: the W-bit value it holds and the mark "written since reset" (R20, R22, R32). The register holds a
value even while unwritten (log 1). -/
structure Reg (W : Width) where
  value : Word W
  written : Bool
  deriving DecidableEq, Repr

/-- RAM: the words that differ from `unlistedWord`, as pairs of address and W-bit word, addresses strictly rising and below
2^16 (R50; log 2, log 12). A word is the smallest unit the machine has (R50), and no byte order exists (R52). -/
abbrev Ram (W : Width) := List (Nat × Word W)

/-- One item of the output stream (R27). -/
inductive OutEvent (W : Width) where
  /-- `Dec(v)`, print mode PRINT. -/
  | dec (v : Word W)
  /-- `Chr(v)`, print mode PRINT_CHAR. -/
  | chr (v : Word W)
  deriving DecidableEq, Repr

/-- The runtime fault kinds (R233). -/
inductive FaultKind where
  | memAddrOutOfRange
  | reservedPrintMode
  | uninitRegisterRead
  | nonCanonicalComp
  deriving DecidableEq, Repr

/-- The fault record: kind, PC and word of the faulting instruction, and A and D before it, each possibly unwritten
(R28). -/
structure FaultRecord (W : Width) where
  kind : FaultKind
  pc : Nat
  word : InstrWord
  a : Reg W
  d : Reg W
  deriving DecidableEq, Repr

/-- What a run changes (R33): A, D, PC, RAM, the output stream (oldest event first) and the fault record. -/
structure Cpu (W : Width) where
  a : Reg W
  d : Reg W
  pc : Nat
  ram : Ram W
  out : List (OutEvent W)
  fault : Option (FaultRecord W)
  deriving DecidableEq, Repr

/-- The state of the machine: the configuration, the ROM and the launch memory `ram0`, which a run never changes (R33,
R60, R65), and what a run changes. -/
structure State where
  cfg : Config
  rom : List InstrWord
  ram0 : Ram cfg.width
  cpu : Cpu cfg.width
  deriving DecidableEq, Repr

/-- Why a step is not taken. Neither is a fault kind of the spec: those are recorded in a next state (R232; log 6). -/
inductive Fault where
  /-- Raised by `step` alone, when no fault is recorded and PC ≥ L: the machine is halted, the successful end of a run
  (R253; log 7). Safe: the spec gives a halted machine no step. -/
  | halted
  /-- Raised by `step` alone, when a fault is recorded: the faulted machine takes no further step (R232; log 6). Safe. -/
  | faulted
  deriving DecidableEq, Repr

/-- Instructions without a meaning. -/
inductive Refusal where
  /-- Raised by an arm of `exec` whose instruction has no meaning yet; no arm does. Safe. -/
  | notModelled (mnemonic : String)
  deriving DecidableEq, Repr

/-- A register right after reset: unwritten (R22, R35), holding the value the model names (log 1). -/
def Reg.reset (W : Width) : Reg W := ⟨registerResetValue W, false⟩

/-- The CPU right after reset with the launch memory `ram0` (R35, R250). -/
def Cpu.reset {W : Width} (ram0 : Ram W) : Cpu W where
  a := Reg.reset W
  d := Reg.reset W
  pc := 0
  ram := ram0
  out := []
  fault := none

/-- The machine after the host has fixed the configuration, loaded a program and `ram0`, and applied reset (R251, steps 1
to 3). -/
def State.load (cfg : Config) (rom : List InstrWord) (ram0 : Ram cfg.width) : State :=
  ⟨cfg, rom, ram0, Cpu.reset ram0⟩

/-- The machine right after reset with nothing loaded: L = 0 (log 5), every RAM word 0 (log 2), W = 16 (R6; log 3). -/
def State.reset : State := State.load Config.reset [] []

end Sys2Proof.Machine
end

