-- ==== Sys2Proof/Machine/Ops.lean ====
section
/-! DEFINITION. The operations over registers and memory (R10), and raising a fault. -/

namespace Sys2Proof.Machine

/-! ### RAM -/

/-- The word at an address: the listed one, else `unlistedWord` (R50, R61). A read has no side effect (R57). -/
def Ram.read {W : Width} : Ram W → Nat → Word W
  | [], _ => unlistedWord W
  | (k, v) :: rest, addr => if k = addr then v else Ram.read rest addr

/-- The list without its entry at an address. -/
def Ram.erase {W : Width} : Ram W → Nat → Ram W
  | [], _ => []
  | (k, v) :: rest, addr => if k = addr then rest else (k, v) :: Ram.erase rest addr

/-- The list with an entry at an address, put in its place by address. -/
def Ram.insert {W : Width} : Ram W → Nat → Word W → Ram W
  | [], addr, w => [(addr, w)]
  | (k, v) :: rest, addr, w =>
    if addr < k then (addr, w) :: (k, v) :: rest
    else if addr = k then (addr, w) :: rest
    else (k, v) :: Ram.insert rest addr w

/-- A store of one word (R50, R55), keeping the list canonical: storing `unlistedWord` removes the entry. -/
def Ram.write {W : Width} (ram : Ram W) (addr : Nat) (w : Word W) : Ram W :=
  if w = unlistedWord W then ram.erase addr else ram.insert addr w

/-- The canonical form above a bound: addresses rise strictly from `lo`, stay below 2^16 (R50), and no entry equals what
an unlisted address reads as. -/
def Ram.wfFrom {W : Width} (lo : Nat) : Ram W → Bool
  | [] => true
  | (k, v) :: rest => decide (lo ≤ k) && decide (k < ramSize) && (v != unlistedWord W) && Ram.wfFrom (k + 1) rest

/-- The canonical form of RAM. -/
def Ram.wf {W : Width} (ram : Ram W) : Bool := ram.wfFrom 0

/-! ### Registers -/

/-- Whether a register can be read: it is written, or the configuration lets an unwritten one give its value (R22;
log 1). -/
def readable {W : Width} (u : UninitRead) (r : Reg W) : Bool := r.written || (u == .value)

/-- `readReg` of R150: the register's value, or the fault `UninitRegisterRead` (R22, R142). -/
def readReg {W : Width} (u : UninitRead) (r : Reg W) : Except FaultKind (Word W) :=
  if readable u r then .ok r.value else .error .uninitRegisterRead

/-- A register after a write of `v`: it counts as written (R22, R146). -/
def Reg.ofValue {W : Width} (v : Word W) : Reg W := ⟨v, true⟩

/-- A register after an instruction that writes it or not (A′ and D′ of R146). -/
def Reg.update {W : Width} (r : Reg W) (written : Bool) (v : Word W) : Reg W :=
  if written then .ofValue v else r

/-! ### Addresses -/

/-- The range check of an access to M (R51). -/
def checkAddr (addr : Nat) : Except FaultKind Unit :=
  if addr < ramSize then .ok () else .error .memAddrOutOfRange


/-! ### Faults

A fault is the machine's only exception: it saves the fault record, changes nothing else, and control goes nowhere (R232,
R236). No return from it exists (R237). -/

/-- `raise Fault(kind, w)`: the fault record takes the kind, PC, the faulting word, and A and D as they stand; nothing else
changes (R232). -/
def State.raise (s : State) (kind : FaultKind) (word : InstrWord) : State :=
  { s with cpu := { s.cpu with fault := some ⟨kind, s.cpu.pc, word, s.cpu.a, s.cpu.d⟩ } }

/-- The spec's number of a fault kind (R233). -/
def faultCode : FaultKind → Nat
  | .memAddrOutOfRange => 1
  | .reservedPrintMode => 2
  | .uninitRegisterRead => 3
  | .nonCanonicalComp => 4

end Sys2Proof.Machine
end

