-- ==== Sys2Proof/Machine/Address.lean ====
section
/-! DEFINITION. The A-instruction (R130). -/

namespace Sys2Proof.Machine

/-- The 15-bit immediate as a data word: zero-extended, never scaled or sign-extended (R73). -/
def immediateWord (W : Width) (imm : BitVec 15) : Word W := imm.setWidth W.bits

/-- `@imm`: A takes the zero-extended immediate and counts as written, and PC advances (R130, R131). -/
def execAddr (imm : BitVec 15) (s : State) : Host.Outcome State Fault Refusal :=
  .next { s with cpu := { s.cpu with a := .ofValue (immediateWord s.cfg.width imm), pc := s.cpu.pc + 1 } }

end Sys2Proof.Machine
end

