-- ==== Sys2Proof/Syntax.lean ====
section
/-! DEFINITION. The instructions: one constructor for each row of spec/opcode_table.json (R79). The operands are already
decoded: no raw field reaches the machine, except a comp code that has no mnemonic. -/

namespace Sys2Proof

/-- The print mode of a legal C-instruction (R78). The reserved mode is the instruction `reservedPrint`. -/
inductive PrintMode where
  | noPrint
  | print
  | printChar
  deriving DecidableEq, Repr

/-- The dest field: which of A, D and RAM[A] receive the ALU result, any subset (R76). -/
structure Dest where
  a : Bool
  d : Bool
  m : Bool
  deriving DecidableEq, Repr

/-- The jump field: "7 named conditions plus never" (R77). -/
inductive Jump where
  | never
  | jgt
  | jeq
  | jge
  | jlt
  | jne
  | jle
  | jmp
  deriving DecidableEq, Repr

/-- An instruction. The 28 canonical comp operations take a print mode, a dest and a jump (R170). -/
inductive Instr where
  /-- `@imm` (R130). -/
  | addr (imm : BitVec 15)
  /-- `0` (R170). -/
  | zero (p : PrintMode) (dest : Dest) (jump : Jump)
  /-- `1` (R171). -/
  | one (p : PrintMode) (dest : Dest) (jump : Jump)
  /-- `-1` (R172). -/
  | negOne (p : PrintMode) (dest : Dest) (jump : Jump)
  /-- `D` (R173). -/
  | d (p : PrintMode) (dest : Dest) (jump : Jump)
  /-- `A` (R174). -/
  | a (p : PrintMode) (dest : Dest) (jump : Jump)
  /-- `M` (R175). -/
  | m (p : PrintMode) (dest : Dest) (jump : Jump)
  /-- `!D` (R176). -/
  | notD (p : PrintMode) (dest : Dest) (jump : Jump)
  /-- `!A` (R177). -/
  | notA (p : PrintMode) (dest : Dest) (jump : Jump)
  /-- `!M` (R178). -/
  | notM (p : PrintMode) (dest : Dest) (jump : Jump)
  /-- `-D` (R179). -/
  | negD (p : PrintMode) (dest : Dest) (jump : Jump)
  /-- `-A` (R180). -/
  | negA (p : PrintMode) (dest : Dest) (jump : Jump)
  /-- `-M` (R181). -/
  | negM (p : PrintMode) (dest : Dest) (jump : Jump)
  /-- `D+1` (R182). -/
  | dPlusOne (p : PrintMode) (dest : Dest) (jump : Jump)
  /-- `A+1` (R183). -/
  | aPlusOne (p : PrintMode) (dest : Dest) (jump : Jump)
  /-- `M+1` (R184). -/
  | mPlusOne (p : PrintMode) (dest : Dest) (jump : Jump)
  /-- `D-1` (R185). -/
  | dMinusOne (p : PrintMode) (dest : Dest) (jump : Jump)
  /-- `A-1` (R186). -/
  | aMinusOne (p : PrintMode) (dest : Dest) (jump : Jump)
  /-- `M-1` (R187). -/
  | mMinusOne (p : PrintMode) (dest : Dest) (jump : Jump)
  /-- `D+A` (R188). -/
  | dPlusA (p : PrintMode) (dest : Dest) (jump : Jump)
  /-- `D+M` (R189). -/
  | dPlusM (p : PrintMode) (dest : Dest) (jump : Jump)
  /-- `D-A` (R190). -/
  | dMinusA (p : PrintMode) (dest : Dest) (jump : Jump)
  /-- `D-M` (R191). -/
  | dMinusM (p : PrintMode) (dest : Dest) (jump : Jump)
  /-- `A-D` (R192). -/
  | aMinusD (p : PrintMode) (dest : Dest) (jump : Jump)
  /-- `M-D` (R193). -/
  | mMinusD (p : PrintMode) (dest : Dest) (jump : Jump)
  /-- `D&A` (R194). -/
  | dAndA (p : PrintMode) (dest : Dest) (jump : Jump)
  /-- `D&M` (R195). -/
  | dAndM (p : PrintMode) (dest : Dest) (jump : Jump)
  /-- `D|A` (R196). -/
  | dOrA (p : PrintMode) (dest : Dest) (jump : Jump)
  /-- `D|M` (R197). -/
  | dOrM (p : PrintMode) (dest : Dest) (jump : Jump)
  /-- A comp code that no mnemonic spells (R198). -/
  | nonCanonical (comp : CompCode) (p : PrintMode) (dest : Dest) (jump : Jump)
  /-- A word whose print code is the reserved one (R80); any comp code. -/
  | reservedPrint (comp : CompCode) (dest : Dest) (jump : Jump)
  deriving DecidableEq, Repr

end Sys2Proof
end

