-- ==== Sys2Proof/Machine/Encoding.lean ====
section
/-! DEFINITION. The comp mnemonic table (R75) and the values of the other C-instruction fields (R76, R77, R78): the one
place the encodings are written down, for the decoder and the encoder. -/

namespace Sys2Proof.Machine

/-- One row of the comp table: the code and the instruction it selects (R75). -/
structure CompRow where
  code : CompCode
  instr : PrintMode → Dest → Jump → Instr

/-- The rows of R75 with a = 0. -/
def compTableA : List CompRow :=
  [⟨0b0101010#7, .zero⟩, ⟨0b0111111#7, .one⟩, ⟨0b0111010#7, .negOne⟩,
   ⟨0b0001100#7, .d⟩, ⟨0b0110000#7, .a⟩, ⟨0b0001101#7, .notD⟩,
   ⟨0b0110001#7, .notA⟩, ⟨0b0001111#7, .negD⟩, ⟨0b0110011#7, .negA⟩,
   ⟨0b0011111#7, .dPlusOne⟩, ⟨0b0110111#7, .aPlusOne⟩, ⟨0b0001110#7, .dMinusOne⟩,
   ⟨0b0110010#7, .aMinusOne⟩, ⟨0b0000010#7, .dPlusA⟩, ⟨0b0010011#7, .dMinusA⟩,
   ⟨0b0000111#7, .aMinusD⟩, ⟨0b0000000#7, .dAndA⟩, ⟨0b0010101#7, .dOrA⟩]

/-- The rows of R75 with a = 1. -/
def compTableM : List CompRow :=
  [⟨0b1110000#7, .m⟩, ⟨0b1110001#7, .notM⟩, ⟨0b1110011#7, .negM⟩,
   ⟨0b1110111#7, .mPlusOne⟩, ⟨0b1110010#7, .mMinusOne⟩, ⟨0b1000010#7, .dPlusM⟩,
   ⟨0b1010011#7, .dMinusM⟩, ⟨0b1000111#7, .mMinusD⟩, ⟨0b1000000#7, .dAndM⟩,
   ⟨0b1010101#7, .dOrM⟩]

/-- The comp mnemonic table, 28 entries (R75). -/
def compTable : List CompRow := compTableA ++ compTableM

/-- The instruction constructor a comp code selects, if a mnemonic spells it (R75). -/
def findComp (code : CompCode) : List CompRow → Option (PrintMode → Dest → Jump → Instr)
  | [] => none
  | row :: rows => if row.code = code then some row.instr else findComp code rows

/-- Whether a comp code is one of the 28 canonical ones (R75, R198). -/
def isCanonical (code : CompCode) : Bool := compTable.any fun row => row.code == code

/-- The dest code `dA dD dM` (R76). -/
def destCode (d : Dest) : BitVec 3 := BitVec.ofBool d.a ++ BitVec.ofBool d.d ++ BitVec.ofBool d.m

/-- The dest a 3-bit code selects (R76). -/
def destOfCode (code : BitVec 3) : Dest := ⟨code[2], code[1], code[0]⟩

/-- `jlt`: the jump is enabled for a negative D′ (R77). -/
def jumpLt : Jump → Bool
  | .jlt | .jne | .jle | .jmp => true
  | .never | .jgt | .jeq | .jge => false

/-- `jeq`: the jump is enabled for D′ = 0 (R77). -/
def jumpEq : Jump → Bool
  | .jeq | .jge | .jle | .jmp => true
  | .never | .jgt | .jlt | .jne => false

/-- `jgt`: the jump is enabled for a positive D′ (R77). -/
def jumpGt : Jump → Bool
  | .jgt | .jge | .jne | .jmp => true
  | .never | .jeq | .jlt | .jle => false

/-- The jump code `jlt jeq jgt` (R77). -/
def jumpCode (j : Jump) : BitVec 3 :=
  BitVec.ofBool (jumpLt j) ++ BitVec.ofBool (jumpEq j) ++ BitVec.ofBool (jumpGt j)

/-- The jump a 3-bit code selects (R77). -/
def jumpOfCode (code : BitVec 3) : Jump :=
  match code[2], code[1], code[0] with
  | false, false, false => .never
  | false, false, true => .jgt
  | false, true, false => .jeq
  | false, true, true => .jge
  | true, false, false => .jlt
  | true, false, true => .jne
  | true, true, false => .jle
  | true, true, true => .jmp

/-- The print code of a mode (R78). -/
def printModeCode (pc : PrintCode) : PrintMode → BitVec 2
  | .noPrint => pc.noPrint
  | .print => pc.print
  | .printChar => pc.printChar

/-- The mode a print code means, none for the reserved code (R78, R80). -/
def printModeOfCode (pc : PrintCode) (c : BitVec 2) : Option PrintMode :=
  if c = pc.noPrint then some .noPrint
  else if c = pc.print then some .print
  else if c = pc.printChar then some .printChar
  else none

end Sys2Proof.Machine
end

