-- ==== Sys2Proof/WellFormed.lean ====
section
/-! DEFINITION. When an instruction term stands for a word: the operand types say all but one thing. -/

namespace Sys2Proof

open Machine

/-- A `nonCanonical` instruction carries one of the 100 comp codes that R75 does not list (R198); every other term is
well formed, since its operands are already of the right kind and width (R71, R76, R77, R78). -/
def Instr.wf : Instr → Bool
  | .nonCanonical comp _ _ _ => !isCanonical comp
  | _ => true

end Sys2Proof
end

