-- ==== Sys2Proof/Decode.lean ====
section
/-! DEFINITION. The decoder, total on 16-bit words (R70, R79), and the encoder written from the same tables (R71, R72,
R89). No word is refused: the 8192 words with the reserved print code decode to `reservedPrint` and the words with a comp
code that no mnemonic spells to `nonCanonical`, each under its own name. -/

namespace Sys2Proof

open Machine

/-- The print code `w[14:13]` (R72). -/
def fieldPrint (w : InstrWord) : BitVec 2 := w.extractLsb' 13 2

/-- The comp code `w[12:6]` (R72). -/
def fieldComp (w : InstrWord) : CompCode := w.extractLsb' 6 7

/-- The dest code `w[5:3]` (R72). -/
def fieldDest (w : InstrWord) : BitVec 3 := w.extractLsb' 3 3

/-- The jump code `w[2:0]` (R72). -/
def fieldJump (w : InstrWord) : BitVec 3 := w.extractLsb' 0 3

/-- The immediate `w[14:0]` (R71). -/
def fieldImm (w : InstrWord) : BitVec 15 := w.extractLsb' 0 15

/-- The opcode bit `w[15]`: 1 selects the C-instruction (R70). -/
def isCompute (w : InstrWord) : Bool := w[15]

/-- A legal C-instruction from its fields (R75, R198). -/
def decodeComp (code : CompCode) (p : PrintMode) (dest : Dest) (jump : Jump) : Instr :=
  match findComp code compTable with
  | some mk => mk p dest jump
  | none => .nonCanonical code p dest jump

/-- A C-instruction word (R80, R143). -/
def decodeCompute (pc : PrintCode) (w : InstrWord) : Instr :=
  match printModeOfCode pc (fieldPrint w) with
  | some p => decodeComp (fieldComp w) p (destOfCode (fieldDest w)) (jumpOfCode (fieldJump w))
  | none => .reservedPrint (fieldComp w) (destOfCode (fieldDest w)) (jumpOfCode (fieldJump w))

/-- The instruction of a 16-bit word (R70, R79). Total. -/
def decode (pc : PrintCode) (w : InstrWord) : Instr :=
  if isCompute w then decodeCompute pc w else .addr (fieldImm w)

/-- A C-instruction word from its four field codes: "1 ++ printCode ++ compCode ++ destCode ++ jumpCode" (R89). -/
def computeWord (p : BitVec 2) (code : CompCode) (dest : Dest) (jump : Jump) : InstrWord :=
  1#1 ++ p ++ code ++ destCode dest ++ jumpCode jump

/-- An A-instruction word: "0" and the 15-bit immediate (R71, R85). -/
def addressWord (imm : BitVec 15) : InstrWord := 0#1 ++ imm

/-- The word of an instruction (R71, R75, R89). -/
def encode (pc : PrintCode) : Instr → InstrWord
  | .addr imm => addressWord imm
  | .zero p dest jump => computeWord (printModeCode pc p) 0b0101010#7 dest jump
  | .one p dest jump => computeWord (printModeCode pc p) 0b0111111#7 dest jump
  | .negOne p dest jump => computeWord (printModeCode pc p) 0b0111010#7 dest jump
  | .d p dest jump => computeWord (printModeCode pc p) 0b0001100#7 dest jump
  | .a p dest jump => computeWord (printModeCode pc p) 0b0110000#7 dest jump
  | .m p dest jump => computeWord (printModeCode pc p) 0b1110000#7 dest jump
  | .notD p dest jump => computeWord (printModeCode pc p) 0b0001101#7 dest jump
  | .notA p dest jump => computeWord (printModeCode pc p) 0b0110001#7 dest jump
  | .notM p dest jump => computeWord (printModeCode pc p) 0b1110001#7 dest jump
  | .negD p dest jump => computeWord (printModeCode pc p) 0b0001111#7 dest jump
  | .negA p dest jump => computeWord (printModeCode pc p) 0b0110011#7 dest jump
  | .negM p dest jump => computeWord (printModeCode pc p) 0b1110011#7 dest jump
  | .dPlusOne p dest jump => computeWord (printModeCode pc p) 0b0011111#7 dest jump
  | .aPlusOne p dest jump => computeWord (printModeCode pc p) 0b0110111#7 dest jump
  | .mPlusOne p dest jump => computeWord (printModeCode pc p) 0b1110111#7 dest jump
  | .dMinusOne p dest jump => computeWord (printModeCode pc p) 0b0001110#7 dest jump
  | .aMinusOne p dest jump => computeWord (printModeCode pc p) 0b0110010#7 dest jump
  | .mMinusOne p dest jump => computeWord (printModeCode pc p) 0b1110010#7 dest jump
  | .dPlusA p dest jump => computeWord (printModeCode pc p) 0b0000010#7 dest jump
  | .dPlusM p dest jump => computeWord (printModeCode pc p) 0b1000010#7 dest jump
  | .dMinusA p dest jump => computeWord (printModeCode pc p) 0b0010011#7 dest jump
  | .dMinusM p dest jump => computeWord (printModeCode pc p) 0b1010011#7 dest jump
  | .aMinusD p dest jump => computeWord (printModeCode pc p) 0b0000111#7 dest jump
  | .mMinusD p dest jump => computeWord (printModeCode pc p) 0b1000111#7 dest jump
  | .dAndA p dest jump => computeWord (printModeCode pc p) 0b0000000#7 dest jump
  | .dAndM p dest jump => computeWord (printModeCode pc p) 0b1000000#7 dest jump
  | .dOrA p dest jump => computeWord (printModeCode pc p) 0b0010101#7 dest jump
  | .dOrM p dest jump => computeWord (printModeCode pc p) 0b1010101#7 dest jump
  | .nonCanonical comp p dest jump => computeWord (printModeCode pc p) comp dest jump
  | .reservedPrint comp dest jump => computeWord pc.reserved comp dest jump

/-- Why bits are no instruction of this machine: an instruction is exactly one 16-bit word (R70). -/
inductive DecodeError where
  /-- More than 16 bits were given. Safe: no instruction is that long (R81). -/
  | tooManyBits
  /-- A bit above the stated number of bits is set. Safe. -/
  | bitsOutOfRange
  deriving DecidableEq, Repr

/-- The instruction in a number of `nbits` bits, bit 0 the word's least significant bit (R8); bits above are 0 (log 17). -/
def decodeBits (pc : PrintCode) (nbits w : Nat) : Except DecodeError Instr :=
  if 16 < nbits then .error .tooManyBits
  else if 2 ^ nbits ≤ w then .error .bitsOutOfRange
  else .ok (decode pc (BitVec.ofNat 16 w))

/-- The instruction the decoder reads from a word of the opcode table, under the spec's print codes (R78). -/
def decodeTableWord (nbits w : Nat) : Option Instr :=
  match decodeBits .spec nbits w with
  | .ok i => some i
  | .error _ => none

end Sys2Proof
end

