-- ==== Sys2Proof/Machine/Flags.lean ====
section
/-! DEFINITION. The ALU (R110), its zero and negative flags (R111), and the jump condition (R210). No flag is stored
(R26). -/

namespace Sys2Proof.Machine

/-- The zero and the negative flag of a W-bit value. -/
structure CondFlags where
  zero : Bool
  negative : Bool
  deriving DecidableEq, Repr

/-- "`zr = 1` iff `out` is all-zero; `ng = 1` iff the most-significant bit of `out` is set" (R111). -/
def flagsOf {W : Width} (v : Word W) : CondFlags := ⟨v == 0#W.bits, v.msb⟩

/-- The six ALU control bits (R110). -/
structure AluCtl where
  zx : Bool
  nx : Bool
  zy : Bool
  ny : Bool
  f : Bool
  no : Bool
  deriving DecidableEq, Repr

/-- The control bits of a comp code: `w[11:6]`, in the order of the ALU's signature (R74, R143). -/
def AluCtl.ofCode (code : CompCode) : AluCtl where
  zx := code[5]
  nx := code[4]
  zy := code[3]
  ny := code[2]
  f := code[1]
  no := code[0]

/-- The a-bit of a comp code, `w[12]`: the y operand is M (R74). -/
def compReadsM (code : CompCode) : Bool := code[6]

/-- What the ALU gives: `out`, `zr` and `ng` (R110). -/
structure AluResult (W : Width) where
  out : Word W
  flags : CondFlags
  deriving DecidableEq, Repr

/-- One ALU input: zeroed, then complemented (R110). -/
def aluInput {W : Width} (zero negate : Bool) (v : Word W) : Word W :=
  let z := if zero then 0#W.bits else v
  if negate then ~~~z else z

/-- The ALU, for every one of the 64 control settings (R110, R112, R113). -/
def alu {W : Width} (c : AluCtl) (x y : Word W) : AluResult W :=
  let x := aluInput c.zx c.nx x
  let y := aluInput c.zy c.ny y
  let r := if c.f then x + y else x &&& y
  let out := if c.no then ~~~r else r
  ⟨out, flagsOf out⟩

/-- The jump condition on the zero and negative conditions of its operand (R210). -/
def jumpCond (j : Jump) (fl : CondFlags) : Bool :=
  (jumpLt j && fl.negative) || (jumpEq j && fl.zero) || (jumpGt j && !fl.negative && !fl.zero)

end Sys2Proof.Machine
end

