-- ==== Sys2Proof/Machine/Operands.lean ====
section
/-! DEFINITION. Reading the operands of a C-instruction, in each role of R142 and under each configuration of R7. Every
function answers the value or the fault of the first check that fails. -/

namespace Sys2Proof.Machine

/-- Under `canonicalOnly` a comp code without a mnemonic faults, before any other check (R199, R234). -/
def checkComp (cfg : Config) (code : CompCode) : Except FaultKind Unit :=
  if cfg.compDecode = .canonicalOnly ∧ isCanonical code = false then .error .nonCanonicalComp else .ok ()

/-- The ALU's x operand: D, read only if zx = 0 (R142, R145). -/
def xOperand (cfg : Config) (code : CompCode) (c : Cpu cfg.width) : Except FaultKind (Word cfg.width) :=
  if (AluCtl.ofCode code).zx then .ok 0#cfg.width.bits else readReg cfg.uninitRead c.d

/-- Whether a store to M goes to A′, the A that the same instruction writes: only under `mAddrSource = postA` (R144). -/
def storesAtPostA (cfg : Config) (dest : Dest) : Bool := (cfg.mAddrSource == .postA) && dest.a

/-- Whether the instruction addresses M by A_pre: it reads M, or writes M at A_pre (R142, R144). -/
def addressesByPreA (cfg : Config) (code : CompCode) (dest : Dest) : Bool :=
  compReadsM code || (dest.m && !storesAtPostA cfg dest)

/-- The address of M from the A before the instruction: `toNat(A_pre)` (R51, R144). -/
def preAddress {W : Width} (c : Cpu W) : Nat := c.a.value.toNat

/-- The checks of an access to M by A_pre: A is readable and its value below 2^16 (R142, R144, R151 items 3 and 4). -/
def checkPreAddress (cfg : Config) (code : CompCode) (dest : Dest) (c : Cpu cfg.width) : Except FaultKind Unit :=
  if addressesByPreA cfg code dest then do
    let a ← readReg cfg.uninitRead c.a
    checkAddr a.toNat
  else .ok ()

/-- The ALU's y operand: M if a = 1, read even if zy = 1; else A, read only if zy = 0 (R142, R145). -/
def yOperand (cfg : Config) (code : CompCode) (c : Cpu cfg.width) : Except FaultKind (Word cfg.width) :=
  if compReadsM code then .ok (c.ram.read (preAddress c))
  else if (AluCtl.ofCode code).zy then .ok 0#cfg.width.bits
  else readReg cfg.uninitRead c.a

/-- The address a store to M goes to: `toNat(A_pre)`, or `toNat(A′)` under `mAddrSource = postA` (R144, R146). -/
def storeAddress (cfg : Config) (dest : Dest) (out : Word cfg.width) (c : Cpu cfg.width) : Nat :=
  if storesAtPostA cfg dest then out.toNat else preAddress c

/-- The range check of a store to M at A′. DEDUCED (log 8): R51's check of "computed address out of bounds" applied to the
address of R144's alternative, made as soon as A′ is known. -/
def checkPostAddress (cfg : Config) (dest : Dest) (out : Word cfg.width) : Except FaultKind Unit :=
  if dest.m && storesAtPostA cfg dest then checkAddr out.toNat else .ok ()

/-- D after the instruction's writes, D′, as a read: D itself is read only if dest does not write it (R142, R146). -/
def readPostD (cfg : Config) (dest : Dest) (out : Word cfg.width) (c : Cpu cfg.width) :
    Except FaultKind (Word cfg.width) :=
  if dest.d then .ok out else readReg cfg.uninitRead c.d

/-- The zero and negative conditions the jump tests: those of D′ (R210), or the ALU's own under `aluOut` (R211). -/
def jumpFlags (cfg : Config) (dest : Dest) (r : AluResult cfg.width) (c : Cpu cfg.width) :
    Except FaultKind CondFlags :=
  match cfg.jumpOperand with
  | .aluOut => .ok r.flags
  | .postWriteD => do
    let d ← readPostD cfg dest r.out c
    return flagsOf d

/-- Whether the jump is taken: its operand is read only if the jump code is neither 000 nor 111 (R142, R150, R210). -/
def jumpTaken (cfg : Config) (dest : Dest) (jump : Jump) (r : AluResult cfg.width) (c : Cpu cfg.width) :
    Except FaultKind Bool :=
  if jump = .never then .ok false
  else if jump = .jmp then .ok true
  else do
    let fl ← jumpFlags cfg dest r c
    return jumpCond jump fl

/-- The target of a taken jump: A′, or A_pre under `jumpTargetSource = preA` (R142, R212). -/
def jumpTarget (cfg : Config) (dest : Dest) (out : Word cfg.width) (c : Cpu cfg.width) :
    Except FaultKind (Word cfg.width) :=
  if (cfg.jumpTargetSource == .postA) && dest.a then .ok out else readReg cfg.uninitRead c.a

/-- The next PC: the target if the jump is taken, else PC + 1 (R149). -/
def nextPc (cfg : Config) (dest : Dest) (taken : Bool) (out : Word cfg.width) (c : Cpu cfg.width) :
    Except FaultKind Nat :=
  if taken then do
    let a ← jumpTarget cfg dest out c
    return a.toNat
  else .ok (c.pc + 1)

/-- The value a print event carries: `out`, or D′ under `printValue = postWriteD` (R142, R148). -/
def printedValue (cfg : Config) (dest : Dest) (out : Word cfg.width) (c : Cpu cfg.width) :
    Except FaultKind (Word cfg.width) :=
  match cfg.printValue with
  | .aluOut => .ok out
  | .postWriteD => readPostD cfg dest out c

/-- The event a print mode emits, if any (R147, R148). -/
def printEvent (cfg : Config) (p : PrintMode) (dest : Dest) (out : Word cfg.width) (c : Cpu cfg.width) :
    Except FaultKind (Option (OutEvent cfg.width)) :=
  match p with
  | .noPrint => .ok none
  | .print => do
    let v ← printedValue cfg dest out c
    return some (.dec v)
  | .printChar => do
    let v ← printedValue cfg dest out c
    return some (.chr v)

end Sys2Proof.Machine
end

