-- ==== Sys2Proof/Machine/Compute.lean ====
section
/-! DEFINITION. The datapath every C-instruction shares (R141, R150): evaluate, which reads and checks and changes nothing,
then commit, which writes everything at once. -/

namespace Sys2Proof.Machine

/-- What the evaluate phase of a C-instruction finds (R141): the ALU result, the address a store goes to, the next PC and
the event to emit. -/
structure Effect (W : Width) where
  out : Word W
  storeAddr : Nat
  nextPc : Nat
  event : Option (OutEvent W)
  deriving DecidableEq, Repr

/-- The evaluate phase (R150), its checks in the order of R151. The checks that only an alternative configuration has stand
where log 8 and log 10 say. -/
def evaluate (cfg : Config) (code : CompCode) (p : PrintMode) (dest : Dest) (jump : Jump) (c : Cpu cfg.width) :
    Except FaultKind (Effect cfg.width) := do
  checkComp cfg code
  let x ← xOperand cfg code c
  checkPreAddress cfg code dest c
  let y ← yOperand cfg code c
  let r := alu (AluCtl.ofCode code) x y
  checkPostAddress cfg dest r.out
  let taken ← jumpTaken cfg dest jump r c
  let next ← nextPc cfg dest taken r.out c
  let event ← printEvent cfg p dest r.out c
  return ⟨r.out, storeAddress cfg dest r.out c, next, event⟩

/-- The commit phase (R141, R146, R148, R149): A, D, the RAM word, the output event and PC, all at once. -/
def Cpu.commit {W : Width} (c : Cpu W) (dest : Dest) (e : Effect W) : Cpu W :=
  { c with
    a := c.a.update dest.a e.out
    d := c.d.update dest.d e.out
    ram := if dest.m then c.ram.write e.storeAddr e.out else c.ram
    out := c.out ++ e.event.toList
    pc := e.nextPc }

/-- A C-instruction (R150): its effect committed, or its fault recorded and nothing committed (R141, R232). -/
def compute (code : CompCode) (p : PrintMode) (dest : Dest) (jump : Jump) (s : State) :
    Host.Outcome State Fault Refusal :=
  match evaluate s.cfg code p dest jump s.cpu with
  | .ok e => .next { s with cpu := s.cpu.commit dest e }
  | .error kind => .next (s.raise kind (computeWord (printModeCode s.cfg.printCode p) code dest jump))

end Sys2Proof.Machine
end

