-- ==== Sys2Proof/Machine/CompA.lean ====
section
/-! DEFINITION. The comp operations on A alone (R174, R177, R180, R183, R186). -/

namespace Sys2Proof.Machine

/-- `A`: out = A (R174). -/
def execA (p : PrintMode) (dest : Dest) (jump : Jump) (s : State) : Host.Outcome State Fault Refusal :=
  compute 0b0110000#7 p dest jump s

/-- `!A`: out = ~A (R177). -/
def execNotA (p : PrintMode) (dest : Dest) (jump : Jump) (s : State) : Host.Outcome State Fault Refusal :=
  compute 0b0110001#7 p dest jump s

/-- `-A`: out = (−A) mod 2^W (R180). -/
def execNegA (p : PrintMode) (dest : Dest) (jump : Jump) (s : State) : Host.Outcome State Fault Refusal :=
  compute 0b0110011#7 p dest jump s

/-- `A+1`: out = (A + 1) mod 2^W (R183). -/
def execAPlusOne (p : PrintMode) (dest : Dest) (jump : Jump) (s : State) : Host.Outcome State Fault Refusal :=
  compute 0b0110111#7 p dest jump s

/-- `A-1`: out = (A − 1) mod 2^W (R186). -/
def execAMinusOne (p : PrintMode) (dest : Dest) (jump : Jump) (s : State) : Host.Outcome State Fault Refusal :=
  compute 0b0110010#7 p dest jump s

end Sys2Proof.Machine
end

