-- ==== Sys2Proof/Machine/CompConst.lean ====
section
/-! DEFINITION. The comp operations that read nothing: 0, 1 and −1 (R170–R172). -/

namespace Sys2Proof.Machine

/-- `0`: out = 0_W (R170). -/
def execZero (p : PrintMode) (dest : Dest) (jump : Jump) (s : State) : Host.Outcome State Fault Refusal :=
  compute 0b0101010#7 p dest jump s

/-- `1`: out = 1 (= zext_W(1)) (R171). -/
def execOne (p : PrintMode) (dest : Dest) (jump : Jump) (s : State) : Host.Outcome State Fault Refusal :=
  compute 0b0111111#7 p dest jump s

/-- `-1`: out = 1s_W (two's-complement −1) (R172). -/
def execNegOne (p : PrintMode) (dest : Dest) (jump : Jump) (s : State) : Host.Outcome State Fault Refusal :=
  compute 0b0111010#7 p dest jump s

end Sys2Proof.Machine
end

