-- ==== Sys2Proof/Machine/CompD.lean ====
section
/-! DEFINITION. The comp operations on D alone (R173, R176, R179, R182, R185). -/

namespace Sys2Proof.Machine

/-- `D`: out = D (R173). -/
def execD (p : PrintMode) (dest : Dest) (jump : Jump) (s : State) : Host.Outcome State Fault Refusal :=
  compute 0b0001100#7 p dest jump s

/-- `!D`: out = ~D (R176). -/
def execNotD (p : PrintMode) (dest : Dest) (jump : Jump) (s : State) : Host.Outcome State Fault Refusal :=
  compute 0b0001101#7 p dest jump s

/-- `-D`: out = (−D) mod 2^W (R179). -/
def execNegD (p : PrintMode) (dest : Dest) (jump : Jump) (s : State) : Host.Outcome State Fault Refusal :=
  compute 0b0001111#7 p dest jump s

/-- `D+1`: out = (D + 1) mod 2^W (R182). -/
def execDPlusOne (p : PrintMode) (dest : Dest) (jump : Jump) (s : State) : Host.Outcome State Fault Refusal :=
  compute 0b0011111#7 p dest jump s

/-- `D-1`: out = (D − 1) mod 2^W (R185). -/
def execDMinusOne (p : PrintMode) (dest : Dest) (jump : Jump) (s : State) : Host.Outcome State Fault Refusal :=
  compute 0b0001110#7 p dest jump s

end Sys2Proof.Machine
end

