-- ==== Sys2Proof/Machine/CompDA.lean ====
section
/-! DEFINITION. The comp operations on D and A (R188, R190, R192, R194, R196). -/

namespace Sys2Proof.Machine

/-- `D+A`: out = (D + A) mod 2^W (R188). -/
def execDPlusA (p : PrintMode) (dest : Dest) (jump : Jump) (s : State) : Host.Outcome State Fault Refusal :=
  compute 0b0000010#7 p dest jump s

/-- `D-A`: out = (D − A) mod 2^W (R190). -/
def execDMinusA (p : PrintMode) (dest : Dest) (jump : Jump) (s : State) : Host.Outcome State Fault Refusal :=
  compute 0b0010011#7 p dest jump s

/-- `A-D`: out = (A − D) mod 2^W (R192). -/
def execAMinusD (p : PrintMode) (dest : Dest) (jump : Jump) (s : State) : Host.Outcome State Fault Refusal :=
  compute 0b0000111#7 p dest jump s

/-- `D&A`: out = D AND A (R194). -/
def execDAndA (p : PrintMode) (dest : Dest) (jump : Jump) (s : State) : Host.Outcome State Fault Refusal :=
  compute 0b0000000#7 p dest jump s

/-- `D|A`: out = D OR A (R196). -/
def execDOrA (p : PrintMode) (dest : Dest) (jump : Jump) (s : State) : Host.Outcome State Fault Refusal :=
  compute 0b0010101#7 p dest jump s

end Sys2Proof.Machine
end

