-- ==== Sys2Proof/Machine/CompDM.lean ====
section
/-! DEFINITION. The comp operations on D and M (R189, R191, R193, R195, R197). -/

namespace Sys2Proof.Machine

/-- `D+M`: out = (D + M) mod 2^W (R189). -/
def execDPlusM (p : PrintMode) (dest : Dest) (jump : Jump) (s : State) : Host.Outcome State Fault Refusal :=
  compute 0b1000010#7 p dest jump s

/-- `D-M`: out = (D − M) mod 2^W (R191). -/
def execDMinusM (p : PrintMode) (dest : Dest) (jump : Jump) (s : State) : Host.Outcome State Fault Refusal :=
  compute 0b1010011#7 p dest jump s

/-- `M-D`: out = (M − D) mod 2^W (R193). -/
def execMMinusD (p : PrintMode) (dest : Dest) (jump : Jump) (s : State) : Host.Outcome State Fault Refusal :=
  compute 0b1000111#7 p dest jump s

/-- `D&M`: out = D AND M (R195). -/
def execDAndM (p : PrintMode) (dest : Dest) (jump : Jump) (s : State) : Host.Outcome State Fault Refusal :=
  compute 0b1000000#7 p dest jump s

/-- `D|M`: out = D OR M (R197). -/
def execDOrM (p : PrintMode) (dest : Dest) (jump : Jump) (s : State) : Host.Outcome State Fault Refusal :=
  compute 0b1010101#7 p dest jump s

end Sys2Proof.Machine
end

