-- ==== Sys2Proof/Machine/CompM.lean ====
section
/-! DEFINITION. The comp operations on M alone (R175, R178, R181, R184, R187). -/

namespace Sys2Proof.Machine

/-- `M`: out = M (R175). -/
def execM (p : PrintMode) (dest : Dest) (jump : Jump) (s : State) : Host.Outcome State Fault Refusal :=
  compute 0b1110000#7 p dest jump s

/-- `!M`: out = ~M (R178). -/
def execNotM (p : PrintMode) (dest : Dest) (jump : Jump) (s : State) : Host.Outcome State Fault Refusal :=
  compute 0b1110001#7 p dest jump s

/-- `-M`: out = (−M) mod 2^W (R181). -/
def execNegM (p : PrintMode) (dest : Dest) (jump : Jump) (s : State) : Host.Outcome State Fault Refusal :=
  compute 0b1110011#7 p dest jump s

/-- `M+1`: out = (M + 1) mod 2^W (R184). -/
def execMPlusOne (p : PrintMode) (dest : Dest) (jump : Jump) (s : State) : Host.Outcome State Fault Refusal :=
  compute 0b1110111#7 p dest jump s

/-- `M-1`: out = (M − 1) mod 2^W (R187). -/
def execMMinusOne (p : PrintMode) (dest : Dest) (jump : Jump) (s : State) : Host.Outcome State Fault Refusal :=
  compute 0b1110010#7 p dest jump s

end Sys2Proof.Machine
end

