-- ==== Sys2Proof/Machine/CompOther.lean ====
section
/-! DEFINITION. The C-instructions without a mnemonic: the non-canonical comp codes (R198, R199) and the reserved print
mode (R80). -/

namespace Sys2Proof.Machine

/-- A non-canonical comp code: `out` by routing its bits (R198), or the fault `NonCanonicalComp` under `canonicalOnly`
(R199). -/
def execNonCanonical (comp : CompCode) (p : PrintMode) (dest : Dest) (jump : Jump) (s : State) :
    Host.Outcome State Fault Refusal :=
  compute comp p dest jump s

/-- The fault of a word with the reserved print code: `ReservedPrintMode`, but `NonCanonicalComp` first where that check is
enabled (R80, R151, R234). -/
def reservedPrintFault (cfg : Config) (comp : CompCode) : FaultKind :=
  match checkComp cfg comp with
  | .error kind => kind
  | .ok _ => .reservedPrintMode

/-- The reserved print mode: it faults and has no effect (R80, R147, R233). -/
def execReservedPrint (comp : CompCode) (dest : Dest) (jump : Jump) (s : State) : Host.Outcome State Fault Refusal :=
  .next (s.raise (reservedPrintFault s.cfg comp) (computeWord s.cfg.printCode.reserved comp dest jump))

end Sys2Proof.Machine
end

