-- ==== Sys2Proof/Machine/Dispatch.lean ====
section
/-! DEFINITION. One arm for each instruction. -/

namespace Sys2Proof.Machine

def exec (i : Instr) (s : State) : Host.Outcome State Fault Refusal :=
  match i with
  | .addr imm => Sys2Proof.Machine.execAddr imm s
  | .zero p dest jump => Sys2Proof.Machine.execZero p dest jump s
  | .one p dest jump => Sys2Proof.Machine.execOne p dest jump s
  | .negOne p dest jump => Sys2Proof.Machine.execNegOne p dest jump s
  | .d p dest jump => Sys2Proof.Machine.execD p dest jump s
  | .a p dest jump => Sys2Proof.Machine.execA p dest jump s
  | .m p dest jump => Sys2Proof.Machine.execM p dest jump s
  | .notD p dest jump => Sys2Proof.Machine.execNotD p dest jump s
  | .notA p dest jump => Sys2Proof.Machine.execNotA p dest jump s
  | .notM p dest jump => Sys2Proof.Machine.execNotM p dest jump s
  | .negD p dest jump => Sys2Proof.Machine.execNegD p dest jump s
  | .negA p dest jump => Sys2Proof.Machine.execNegA p dest jump s
  | .negM p dest jump => Sys2Proof.Machine.execNegM p dest jump s
  | .dPlusOne p dest jump => Sys2Proof.Machine.execDPlusOne p dest jump s
  | .aPlusOne p dest jump => Sys2Proof.Machine.execAPlusOne p dest jump s
  | .mPlusOne p dest jump => Sys2Proof.Machine.execMPlusOne p dest jump s
  | .dMinusOne p dest jump => Sys2Proof.Machine.execDMinusOne p dest jump s
  | .aMinusOne p dest jump => Sys2Proof.Machine.execAMinusOne p dest jump s
  | .mMinusOne p dest jump => Sys2Proof.Machine.execMMinusOne p dest jump s
  | .dPlusA p dest jump => Sys2Proof.Machine.execDPlusA p dest jump s
  | .dPlusM p dest jump => Sys2Proof.Machine.execDPlusM p dest jump s
  | .dMinusA p dest jump => Sys2Proof.Machine.execDMinusA p dest jump s
  | .dMinusM p dest jump => Sys2Proof.Machine.execDMinusM p dest jump s
  | .aMinusD p dest jump => Sys2Proof.Machine.execAMinusD p dest jump s
  | .mMinusD p dest jump => Sys2Proof.Machine.execMMinusD p dest jump s
  | .dAndA p dest jump => Sys2Proof.Machine.execDAndA p dest jump s
  | .dAndM p dest jump => Sys2Proof.Machine.execDAndM p dest jump s
  | .dOrA p dest jump => Sys2Proof.Machine.execDOrA p dest jump s
  | .dOrM p dest jump => Sys2Proof.Machine.execDOrM p dest jump s
  | .nonCanonical comp p dest jump => Sys2Proof.Machine.execNonCanonical comp p dest jump s
  | .reservedPrint comp dest jump => Sys2Proof.Machine.execReservedPrint comp dest jump s

end Sys2Proof.Machine
end

