-- ==== Sys2Proof/Machine/Fetch.lean ====
section
/-! DEFINITION. Fetching an instruction word from ROM, and the end of a run (R140, R253). -/

namespace Sys2Proof.Machine

/-- `ROM[PC]`, none if PC ≥ L (R10, R25, R140). -/
def State.fetch (s : State) : Option InstrWord := s.rom[s.cpu.pc]?

/-- The machine is faulted: a fault is recorded (R28, R232). -/
def State.isFaulted (s : State) : Bool := s.cpu.fault.isSome

/-- The machine is halted: no fault is recorded and PC ≥ L (R253). -/
def State.isHalted (s : State) : Bool := s.cpu.fault.isNone && decide (s.rom.length ≤ s.cpu.pc)

/-- A ROM with a word at an index, lengthened with zero words (`@0`) up to it where it is shorter. -/
def placeWord (w : InstrWord) : Nat → List InstrWord → List InstrWord
  | 0, [] => [w]
  | 0, _ :: rest => w :: rest
  | n + 1, [] => 0#16 :: placeWord w n []
  | n + 1, old :: rest => old :: placeWord w n rest

/-- A program loaded from outside the machine: a word stored where the next fetch reads (log 5). -/
def State.withWord (s : State) (w : InstrWord) : State :=
  { s with rom := placeWord w s.cpu.pc s.rom, cpu := { s.cpu with fault := none } }

end Sys2Proof.Machine
end

