-- ==== Sys2Proof/Machine/Step.lean ====
section
/-! DEFINITION. One step of the fetch-decode-execute loop (R140). -/

namespace Sys2Proof.Machine

/-- One step (R140): none for a faulted or a halted machine (R232, R253), else fetch, decode and execute one instruction
completely (R260). -/
def step (s : State) : Host.Outcome State Fault Refusal :=
  if s.isFaulted then .fault .faulted
  else
    match s.fetch with
    | none => .fault .halted
    | some w => exec (decode s.cfg.printCode w) s

/-- The state with an instruction word of `nbits` bits stored where the next step fetches it (log 5). -/
def State.withFetchWord (s : State) (nbits w : Nat) : State := s.withWord (BitVec.ofNat 16 (w % 2 ^ nbits))

end Sys2Proof.Machine
end

