-- ==== Sys2Proof/Machine/Assembler.lean ====
section
/-! DEFINITION. The assembler (R82–R91): from program text to 16-bit words. It binds no step of the CPU. Text is a list of
characters, so that every function recurses on the list. -/

namespace Sys2Proof.Machine

/-- Program text, or a piece of it. -/
abbrev Text := List Char

/-- Why assembly stops, with the number of the source line, counted from 1 (R91). -/
inductive AsmError where
  /-- A print, comp, dest or jump mnemonic that no table spells (R88, R91). -/
  | unresolvedSymbol (line : Nat)
  /-- An address above 32767 (R85). -/
  | addressRange (line : Nat)
  deriving DecidableEq, Repr

/-! ### Lines (R82, R83) -/

/-- The lines of a text. -/
def splitLines : Text → List Text
  | [] => [[]]
  | '\n' :: rest => [] :: splitLines rest
  | ch :: rest =>
    match splitLines rest with
    | line :: lines => (ch :: line) :: lines
    | [] => [[ch]]

/-- A line without its comment: `//` to the end of the line (R82). -/
def stripComment : Text → Text
  | [] => []
  | '/' :: '/' :: _ => []
  | ch :: rest => ch :: stripComment rest

/-- White space inside a line (R82; log 16). -/
def isBlank (ch : Char) : Bool := ch == ' ' || ch == '\t' || ch == '\r'

/-- A line without leading and trailing white space (R82). -/
def trim (t : Text) : Text := ((t.dropWhile isBlank).reverse.dropWhile isBlank).reverse

/-- The three kinds of line (R83). -/
inductive Line where
  | label (name : Text)
  | address (symbol : Text)
  | compute (text : Text)
  deriving DecidableEq, Repr

/-- The kind of a stripped line (R83). The model's choices: a parenthesis left open (log 16), and that a name is any text,
empty or with parentheses and white space in it (log 20). -/
def lineKind : Text → Line
  | '@' :: symbol => .address symbol
  | '(' :: rest => if rest.getLast? = some ')' then .label rest.dropLast else .compute ('(' :: rest)
  | t => .compute t

/-- The lines of a program with their line numbers, comments and blank lines stripped first (R82). -/
def numberedLines : Nat → List Text → List (Nat × Line)
  | _, [] => []
  | n, t :: rest =>
    match trim (stripComment t) with
    | [] => numberedLines (n + 1) rest
    | code => (n, lineKind code) :: numberedLines (n + 1) rest

/-! ### Symbols (R84–R87) -/

/-- A table of symbol values; the first entry for a name counts. -/
abbrev SymbolTable := List (Text × Nat)

/-- Pass 1: each label's ROM index, from a counter that every other line increments (R84). A label defined twice takes its
last value (log 16). -/
def collectLabels : SymbolTable → Nat → List (Nat × Line) → SymbolTable
  | labels, _, [] => labels
  | labels, counter, (_, .label name) :: rest => collectLabels ((name, counter) :: labels) counter rest
  | labels, counter, (_, .address _) :: rest => collectLabels labels (counter + 1) rest
  | labels, counter, (_, .compute _) :: rest => collectLabels labels (counter + 1) rest

/-- The predefined symbols, 23 names (R87). -/
def predefined : SymbolTable :=
  [("SP".toList, 0), ("LCL".toList, 1), ("ARG".toList, 2), ("THIS".toList, 3), ("THAT".toList, 4),
   ("SCREEN".toList, 16384), ("KBD".toList, 24576)] ++
  [("R0".toList, 0), ("R1".toList, 1), ("R2".toList, 2), ("R3".toList, 3), ("R4".toList, 4), ("R5".toList, 5),
   ("R6".toList, 6), ("R7".toList, 7), ("R8".toList, 8), ("R9".toList, 9), ("R10".toList, 10), ("R11".toList, 11),
   ("R12".toList, 12), ("R13".toList, 13), ("R14".toList, 14), ("R15".toList, 15)]

/-- A decimal digit. -/
def isDigit (ch : Char) : Bool := decide (48 ≤ ch.toNat) && decide (ch.toNat ≤ 57)

/-- The value of a string of decimal digits. -/
def decimalValue : Nat → Text → Nat
  | n, [] => n
  | n, ch :: rest => decimalValue (10 * n + (ch.toNat - 48)) rest

/-- A decimal literal, if the symbol is one: digits only, at least one (R85). -/
def literal? (symbol : Text) : Option Nat :=
  if symbol ≠ [] ∧ symbol.all isDigit = true then some (decimalValue 0 symbol) else none

/-- The variables allocated so far, and the address the next one gets (R86). -/
structure Variables where
  table : SymbolTable
  next : Nat
  deriving DecidableEq, Repr

/-- The variables before the first allocation: addresses start at 16 (R86). -/
def Variables.start : Variables := ⟨[], 16⟩

/-- A symbol's value: literal, else label, else predefined, else variable, the next free one allocated for a name not seen
before (R85, R86). The model's choice: the count goes on through the addresses of SCREEN and KBD, and a variable that
reaches one shares it (log 19). -/
def resolve (labels : SymbolTable) (vars : Variables) (symbol : Text) : Nat × Variables :=
  match literal? symbol with
  | some v => (v, vars)
  | none =>
    match labels.lookup symbol with
    | some v => (v, vars)
    | none =>
      match predefined.lookup symbol with
      | some v => (v, vars)
      | none =>
        match vars.table.lookup symbol with
        | some v => (v, vars)
        | none => (vars.next, ⟨(symbol, vars.next) :: vars.table, vars.next + 1⟩)

/-! ### C-instructions (R75–R78, R88) -/

/-- The spellings of the canonical comp operations (R75). -/
def compNames : List (Text × (PrintMode → Dest → Jump → Instr)) :=
  [("0".toList, .zero), ("1".toList, .one), ("-1".toList, .negOne), ("D".toList, .d),
   ("A".toList, .a), ("M".toList, .m), ("!D".toList, .notD), ("!A".toList, .notA),
   ("!M".toList, .notM), ("-D".toList, .negD), ("-A".toList, .negA), ("-M".toList, .negM),
   ("D+1".toList, .dPlusOne), ("A+1".toList, .aPlusOne)] ++
  [("M+1".toList, .mPlusOne), ("D-1".toList, .dMinusOne), ("A-1".toList, .aMinusOne), ("M-1".toList, .mMinusOne),
   ("D+A".toList, .dPlusA), ("D+M".toList, .dPlusM), ("D-A".toList, .dMinusA), ("D-M".toList, .dMinusM),
   ("A-D".toList, .aMinusD), ("M-D".toList, .mMinusD), ("D&A".toList, .dAndA), ("D&M".toList, .dAndM),
   ("D|A".toList, .dOrA), ("D|M".toList, .dOrM)]

/-- The spellings of the dests that are not omitted (R76). -/
def destNames : List (Text × Dest) :=
  [("M".toList, ⟨false, false, true⟩), ("D".toList, ⟨false, true, false⟩), ("MD".toList, ⟨false, true, true⟩),
   ("A".toList, ⟨true, false, false⟩), ("AM".toList, ⟨true, false, true⟩), ("AD".toList, ⟨true, true, false⟩),
   ("AMD".toList, ⟨true, true, true⟩)]

/-- The spellings of the jumps that are not omitted (R77). -/
def jumpNames : List (Text × Jump) :=
  [("JGT".toList, .jgt), ("JEQ".toList, .jeq), ("JGE".toList, .jge), ("JLT".toList, .jlt), ("JNE".toList, .jne),
   ("JLE".toList, .jle), ("JMP".toList, .jmp)]

/-- The text before and after the first occurrence of a character, if it occurs. -/
def splitAtChar (ch : Char) : Text → Option (Text × Text)
  | [] => none
  | x :: rest =>
    if x = ch then some ([], rest)
    else
      match splitAtChar ch rest with
      | some (before, after) => some (x :: before, after)
      | none => none

/-- A text without a given beginning, if it begins so. -/
def dropStart? : Text → Text → Option Text
  | [], t => some t
  | _ :: _, [] => none
  | x :: xs, y :: ys => if x = y then dropStart? xs ys else none

/-- The optional print token, followed by a space, and what follows it (R88). -/
def splitPrint (t : Text) : PrintMode × Text :=
  match dropStart? "PRINT ".toList t with
  | some rest => (.print, rest)
  | none =>
    match dropStart? "PRINT_CHAR ".toList t with
    | some rest => (.printChar, rest)
    | none => (.noPrint, t)

/-- The optional `dest=` and what follows it; none for a spelling that is in no table (R88). -/
def splitDest (t : Text) : Option (Dest × Text) :=
  match splitAtChar '=' t with
  | none => some (⟨false, false, false⟩, t)
  | some (name, rest) => (destNames.lookup name).map fun dest => (dest, rest)

/-- The comp and the optional `;jump`; none for a spelling that is in no table (R88). -/
def splitJump (t : Text) : Option (Text × Jump) :=
  match splitAtChar ';' t with
  | none => some (t, .never)
  | some (comp, name) => (jumpNames.lookup name).map fun jump => (comp, jump)

/-- A C-instruction line, `[PRINT|PRINT_CHAR ]([dest=]comp[;jump])` (R83, R88). -/
def parseCompute (t : Text) : Option Instr :=
  match splitDest (splitPrint t).2 with
  | none => none
  | some (dest, rest) =>
    match splitJump rest with
    | none => none
    | some (comp, jump) => (compNames.lookup comp).map fun mk => mk (splitPrint t).1 dest jump

/-! ### Pass 2 (R85, R88, R89) -/

/-- The A-instruction that loads a resolved value, or the range error of R85. -/
def addressInstr (line v : Nat) : Except AsmError Instr :=
  if 32767 < v then .error (.addressRange line) else .ok (.addr (BitVec.ofNat 15 v))

/-- Pass 2 over the lines, in order; the first line in error stops it (R91). -/
def assembleLines (labels : SymbolTable) : Variables → List (Nat × Line) → Except AsmError (List Instr)
  | _, [] => .ok []
  | vars, (_, .label _) :: rest => assembleLines labels vars rest
  | vars, (n, .address symbol) :: rest => do
    let i ← addressInstr n (resolve labels vars symbol).1
    let is ← assembleLines labels (resolve labels vars symbol).2 rest
    return i :: is
  | vars, (n, .compute t) :: rest =>
    match parseCompute t with
    | none => .error (.unresolvedSymbol n)
    | some i => do
      let is ← assembleLines labels vars rest
      return i :: is

/-- The instructions of a program text (R82–R88). Labels are all collected before any line is encoded (R84). -/
def assembleInstrs (text : Text) : Except AsmError (List Instr) :=
  let lines := numberedLines 1 (splitLines text)
  assembleLines (collectLabels [] 0 lines) Variables.start lines

/-- The words of a program text (R85, R89). -/
def assemble (pc : PrintCode) (text : Text) : Except AsmError (List InstrWord) :=
  match assembleInstrs text with
  | .ok is => .ok (is.map (encode pc))
  | .error e => .error e

end Sys2Proof.Machine
end

