-- ==== Sys2Proof/Machine/Output.lean ====
section
/-! DEFINITION. The host's rendering of the output stream (R27, R148, R263). How one value becomes text is OPEN: the two
renderings of R7 are arguments (log 14). -/

namespace Sys2Proof.Machine

/-- The text of one event. -/
def renderEvent {W : Width} (renderDecimal renderChar : Word W → String) : OutEvent W → String
  | .dec v => renderDecimal v
  | .chr v => renderChar v

/-- The text of the stream: the events in order, with no separator. R148 says so of `Dec` events; that none stands before or
after a `Chr` event is DEDUCED (log 14). -/
def renderOutput {W : Width} (renderDecimal renderChar : Word W → String) : List (OutEvent W) → String
  | [] => ""
  | e :: rest => renderEvent renderDecimal renderChar e ++ renderOutput renderDecimal renderChar rest

end Sys2Proof.Machine
end

