-- ==== Sys2Proof/Machine/Ports.lean ====
section
/-! DEFINITION. The block interface (R34): the outputs as a function of the state, and what a clock edge does. The outputs
are read from the fields of the fetched word itself (R143), not from the decoded instruction. -/

namespace Sys2Proof.Machine

/-- The ports of R34 apart from `clk` and `rst`, which are `clockEdge`'s. The inputs are what ROM and RAM drive. A value
the table calls meaningful or valid only under a condition is an Option, none where the condition fails, and so is a value
that a register without one would have to give (log 15). -/
structure Ports (W : Width) where
  romAddr : Nat
  romLen : Nat
  romData : Option InstrWord
  ramAddr : Option (BitVec 16)
  ramRe : Bool
  ramRdata : Option (Word W)
  ramWe : Bool
  ramWdata : Option (Word W)
  outValid : Bool
  outKind : Option Bool
  outData : Option (Word W)
  halted : Bool
  fault : Bool
  faultInfo : Option (FaultRecord W)
  deriving DecidableEq, Repr

/-- The C-instruction word being executed, if one is: none on a halted or a faulted machine (R140). -/
def currentCompute (s : State) : Option InstrWord :=
  if s.isFaulted then none
  else
    match s.fetch with
    | some w => if isCompute w then some w else none
    | none => none

/-- What the C-instruction word being executed evaluates to, if it does not fault (R141, R143). -/
def currentEffect (s : State) : Option (Effect s.cfg.width) :=
  match currentCompute s with
  | none => none
  | some w =>
    match printModeOfCode s.cfg.printCode (fieldPrint w) with
    | none => none
    | some p =>
      match evaluate s.cfg (fieldComp w) p (destOfCode (fieldDest w)) (jumpOfCode (fieldJump w)) s.cpu with
      | .ok e => some e
      | .error _ => none

/-- The ALU result of a comp code on the operands as they stand, if they have values: D, A and M are read as R142 and R145
say, with the checks of those reads and no others. -/
def aluResult (cfg : Config) (code : CompCode) (c : Cpu cfg.width) : Except FaultKind (AluResult cfg.width) := do
  let x ← xOperand cfg code c
  checkPreAddress cfg code ⟨false, false, false⟩ c
  let y ← yOperand cfg code c
  return alu (AluCtl.ofCode code) x y

/-- `ram_wdata`: the ALU result of the C-instruction being executed, whether it stores or not and whether it faults or not,
as the table puts no condition on it (R34). None where an operand has no value, and where no C-instruction executes, since
an A-instruction does not use the ALU (R130): the model's choice for what the port then shows (log 15). -/
def ramWriteData (s : State) : Option (Word s.cfg.width) :=
  match currentCompute s with
  | none => none
  | some w =>
    match aluResult s.cfg (fieldComp w) s.cpu with
    | .ok r => some r.out
    | .error _ => none

/-- Whether A has a value that is a RAM address, so that `ram_addr` and `ram_rdata` are meaningful (R34). That a register
that cannot be read, unwritten under `uninitRead = fault`, gives them no value is the model's choice (log 15). -/
def ramAddressValid (s : State) : Bool :=
  readable s.cfg.uninitRead s.cpu.a && decide (preAddress s.cpu < ramSize)

/-- Whether the word being executed reads M: a C-instruction with a-bit 1 (R34, `ram_re`). -/
def ramReadEnable (s : State) : Bool :=
  match currentCompute s with
  | some w => compReadsM (fieldComp w)
  | none => false

/-- Whether the word being executed writes M: a C-instruction whose dest includes M and that does not fault (R34,
`ram_we`). -/
def ramWriteEnable (s : State) : Bool :=
  match currentCompute s with
  | some w => (destOfCode (fieldDest w)).m && (currentEffect s).isSome
  | none => false

/-- The output event of the instruction being executed (R34, `out_valid`, `out_kind`, `out_data`). -/
def currentEvent (s : State) : Option (OutEvent s.cfg.width) :=
  match currentEffect s with
  | some e => e.event
  | none => none

/-- `out_kind`: 0 = Dec, 1 = Chr (R34). -/
def eventKind {W : Width} : OutEvent W → Bool
  | .dec _ => false
  | .chr _ => true

/-- `out_data`: the printed value (R34). -/
def eventValue {W : Width} : OutEvent W → Word W
  | .dec v => v
  | .chr v => v

/-- The ports in a state (R34). What they show where the table says nothing is the model's choice (log 15). -/
def portsOf (s : State) : Ports s.cfg.width where
  romAddr := s.cpu.pc
  romLen := s.rom.length
  romData := s.fetch
  ramAddr := if ramAddressValid s then some (s.cpu.a.value.setWidth 16) else none
  ramRe := ramReadEnable s
  ramRdata := if ramAddressValid s then some (s.cpu.ram.read (preAddress s.cpu)) else none
  ramWe := ramWriteEnable s
  ramWdata := ramWriteData s
  outValid := (currentEvent s).isSome
  outKind := (currentEvent s).map eventKind
  outData := (currentEvent s).map eventValue
  halted := s.isHalted
  fault := s.isFaulted
  faultInfo := s.cpu.fault

/-- Synchronous reset (R34, `rst`; R250): the state of R35, the configuration, the ROM and `ram0` kept (log 15). -/
def State.rst (s : State) : State := State.load s.cfg s.rom s.ram0

/-- A rising edge of `clk` (R34, R260): reset if `rst` is 1, else one instruction while running, else nothing. -/
def clockEdge (rst : Bool) (s : State) : State :=
  if rst then s.rst
  else
    match step s with
    | .next t => t
    | .fault _ => s
    | .refused _ => s

end Sys2Proof.Machine
end

