-- ==== Sys2Proof/Safety.lean ====
section
/-! DEFINITION. Runs, the ends of a run (R254), and what claims call a well-formed state. -/

namespace Sys2Proof.Machine

/-- `t` is reached from `s` by steps of the machine (R140). -/
inductive Reaches (s : State) : State → Prop where
  | refl : Reaches s s
  | tail {t u : State} : Reaches s t → step t = .next u → Reaches s u

/-- How a run ends, if it does (R254). -/
inductive RunEnd where
  | halted
  | faulted
  deriving DecidableEq, Repr

/-- The end a state is, none for a state that has a step (R253, R254). -/
def runEnd (s : State) : Option RunEnd :=
  if s.isFaulted then some .faulted else if s.isHalted then some .halted else none

/-- A register is sound: while unwritten it still holds the value it had at reset (R22; log 1). -/
def Reg.sound {W : Width} (r : Reg W) : Bool := r.written || decide (r.value = registerResetValue W)

/-- A fault record is precise (R28, R232): it names the PC the machine still stands at, the word there, and A and D as they
still are. -/
def FaultRecord.precise (s : State) (r : FaultRecord s.cfg.width) : Bool :=
  decide (r.pc = s.cpu.pc ∧ s.fetch = some r.word ∧ r.a = s.cpu.a ∧ r.d = s.cpu.d)

/-- The invariant of the machine: RAM and `ram0` are canonical (R50), the registers are sound, and a recorded fault is
precise (R232). -/
structure Inv (s : State) : Prop where
  ram_wf : s.cpu.ram.wf = true
  ram0_wf : s.ram0.wf = true
  a_sound : Reg.sound s.cpu.a = true
  d_sound : Reg.sound s.cpu.d = true
  fault_precise : ∀ r, s.cpu.fault = some r → FaultRecord.precise s r = true

/-- A safe end of a run: halted, not faulted (R254). -/
def EndsSafely (s : State) : Prop := ∃ t, Reaches s t ∧ runEnd t = some .halted

end Sys2Proof.Machine
end

