-- ==== Sys2Proof/Certificates/Slice0/Obligations.lean ====
section
/-! DEFINITION. The statements about the model, and the words they are said in. The words under `Claims` are written from
the rules, not from the model's own functions, wherever a rule gives a closed form. -/

namespace Sys2Proof.Claims

open Machine

/-! ### Words for the state after an instruction -/

/-- The spec's own choice of every source parameter of R7. The width, the print codes and the policy for unwritten
registers stay free. -/
structure SpecSources (cfg : Config) : Prop where
  compDecode : cfg.compDecode = .bitRouted
  mAddr : cfg.mAddrSource = .preA
  target : cfg.jumpTargetSource = .postA
  operand : cfg.jumpOperand = .postWriteD
  printed : cfg.printValue = .aluOut

/-- A register was written since reset (R22). Such a register can be read under every configuration. An unwritten one
faults when read, where `uninitRead = fault`; what else a configuration may do is the model's choice (log 1), and
`HeldValuesCountAsWritten` says it. -/
abbrev Written {W : Width} (r : Reg W) : Prop := r.written = true

/-- D′, D after the writes (R146). -/
def postD (s : State) (dest : Dest) (out : Word s.cfg.width) : Word s.cfg.width :=
  if dest.d then out else s.cpu.d.value

/-- A′, A after the writes (R146). -/
def postA (s : State) (dest : Dest) (out : Word s.cfg.width) : Word s.cfg.width :=
  if dest.a then out else s.cpu.a.value

/-- The table of R77: when a jump is taken, by the signed value tested. -/
def signedTaken : Jump → Int → Bool
  | .never, _ => false
  | .jgt, v => decide (0 < v)
  | .jeq, v => decide (v = 0)
  | .jge, v => decide (0 ≤ v)
  | .jlt, v => decide (v < 0)
  | .jne, v => decide (v ≠ 0)
  | .jle, v => decide (v ≤ 0)
  | .jmp, _ => true

/-- Whether the jump is taken on D′ (R77, R210). -/
def taken (s : State) (dest : Dest) (jump : Jump) (out : Word s.cfg.width) : Bool :=
  signedTaken jump (postD s dest out).toInt

/-- The events a print mode adds (R147, R148). -/
def events {W : Width} : PrintMode → Word W → List (OutEvent W)
  | .noPrint, _ => []
  | .print, v => [.dec v]
  | .printChar, v => [.chr v]

/-- The state after a C-instruction, from the ALU result, whether it jumps and where to, where it stores, and the value it
prints (R146, R148, R149). Nothing else changes. -/
def afterWith (s : State) (p : PrintMode) (dest : Dest) (out : Word s.cfg.width) (jumps : Bool) (target : Nat)
    (addr : Nat) (printed : Word s.cfg.width) : State :=
  { s with cpu :=
    { a := if dest.a then ⟨out, true⟩ else s.cpu.a
      d := if dest.d then ⟨out, true⟩ else s.cpu.d
      pc := if jumps then target else s.cpu.pc + 1
      ram := if dest.m then s.cpu.ram.write addr out else s.cpu.ram
      out := s.cpu.out ++ events p printed
      fault := s.cpu.fault } }

/-- The state after a C-instruction under the spec's sources: it stores at A_pre, tests D′, jumps to A′ and prints the ALU
result (R144, R148, R210, R212). -/
def after (s : State) (p : PrintMode) (dest : Dest) (jump : Jump) (out : Word s.cfg.width) : State :=
  afterWith s p dest out (taken s dest jump out) (postA s dest out).toNat s.cpu.a.value.toNat out

/-- The state after a fault: the record is set and nothing else changes (R232). -/
def faultedWith (s : State) (kind : FaultKind) (word : InstrWord) : State :=
  { s with cpu := { s.cpu with fault := some ⟨kind, s.cpu.pc, word, s.cpu.a, s.cpu.d⟩ } }

/-- What the dest and jump fields of an instruction need, under the spec's sources (R142, R144). -/
structure FieldsOk (s : State) (dest : Dest) (jump : Jump) (out : Word s.cfg.width) : Prop where
  store : dest.m = true → Written s.cpu.a ∧ s.cpu.a.value.toNat < 65536
  operand : dest.d = false → jump ≠ .never → jump ≠ .jmp → Written s.cpu.d
  target : dest.a = false → taken s dest jump out = true → Written s.cpu.a

/-- The faults of an instruction's dest and jump fields, under the spec's sources: those of an M address, a jump operand
and a jump target, in this order (R142, R144, R151). -/
structure FieldFaults (s : State) (dest : Dest) (jump : Jump) (out : Word s.cfg.width) (faults : FaultKind → Prop) :
    Prop where
  storeUnwritten : s.cfg.uninitRead = .fault → dest.m = true → ¬ Written s.cpu.a → faults .uninitRegisterRead
  storeRange : dest.m = true → Written s.cpu.a → 65536 ≤ s.cpu.a.value.toNat → faults .memAddrOutOfRange
  operand : s.cfg.uninitRead = .fault → (dest.m = true → Written s.cpu.a ∧ s.cpu.a.value.toNat < 65536) →
    dest.d = false → jump ≠ .never → jump ≠ .jmp → ¬ Written s.cpu.d → faults .uninitRegisterRead
  target : s.cfg.uninitRead = .fault → (dest.m = true → Written s.cpu.a ∧ s.cpu.a.value.toNat < 65536) →
    (dest.d = false → jump ≠ .never → jump ≠ .jmp → Written s.cpu.d) → dest.a = false →
    taken s dest jump out = true → ¬ Written s.cpu.a → faults .uninitRegisterRead

/-- The state with the values it holds, and both registers marked as written. -/
def marked (s : State) : State :=
  { s with cpu := { s.cpu with a := ⟨s.cpu.a.value, true⟩, d := ⟨s.cpu.d.value, true⟩ } }

/-- The state with `compDecode = bitRouted`, all else the same. -/
def bitRouted (s : State) : State := ⟨{ s.cfg with compDecode := .bitRouted }, s.rom, s.ram0, s.cpu⟩

/-! ### Words for the comp operations -/

/-- An instruction with free print, dest and jump fields. -/
abbrev CompOp := PrintMode → Dest → Jump → Instr

/-- What every rule of a canonical comp operation says beside the result: its word is `1 pp comp ddd jjj` (R72, R89); the
same word with the reserved print code faults (R80); the ALU's flags for its control bits are those of its result, whatever
the inputs (R111). -/
structure CompRule (op : CompOp) (code : CompCode) : Prop where
  word : ∀ pc p dest jump, encode pc (op p dest jump) = computeWord (printModeCode pc p) code dest jump
  decoded : ∀ pc p dest jump, decode pc (computeWord (printModeCode pc p) code dest jump) = op p dest jump
  reserved : ∀ dest jump (s : State), s.cfg.compDecode = .bitRouted →
    exec (decode s.cfg.printCode (computeWord s.cfg.printCode.reserved code dest jump)) s =
      .next (faultedWith s .reservedPrintMode (computeWord s.cfg.printCode.reserved code dest jump))
  flags : ∀ (W : Width) (x y : Word W),
    let r := alu (AluCtl.ofCode code) x y
    r.flags.zero = decide (r.out = 0#W.bits) ∧ r.flags.negative = r.out.getLsbD (W.bits - 1)

/-- An instruction in a state answers the fault `kind`, with its own word in the record (R232). -/
def Faults (i : Instr) (s : State) (kind : FaultKind) : Prop :=
  exec i s = .next (faultedWith s kind (encode s.cfg.printCode i))

/-- Once its ALU operands are read: an instruction whose dest and jump fields have what they need takes the state that the
rules give for the ALU result `out`; else it faults. -/
structure Gives (i : Instr) (p : PrintMode) (dest : Dest) (jump : Jump) (s : State) (out : Word s.cfg.width) : Prop where
  next : FieldsOk s dest jump out → exec i s = .next (after s p dest jump out)
  faults : FieldFaults s dest jump out (Faults i s)

/-- The operation reads no register and gives `f`. -/
def ConstantOp (op : CompOp) (f : (W : Width) → Word W) : Prop :=
  ∀ p dest jump s, SpecSources s.cfg → Gives (op p dest jump) p dest jump s (f _)

/-- The operation reads D and gives `f D`; with D unwritten it faults. -/
def DOp (op : CompOp) (f : (W : Width) → Word W → Word W) : Prop :=
  ∀ p dest jump s, SpecSources s.cfg →
    (Written s.cpu.d → Gives (op p dest jump) p dest jump s (f _ s.cpu.d.value)) ∧
    (s.cfg.uninitRead = .fault → ¬ Written s.cpu.d → Faults (op p dest jump) s .uninitRegisterRead)

/-- The operation reads A as y and gives `f A`; with A unwritten it faults. -/
def AOp (op : CompOp) (f : (W : Width) → Word W → Word W) : Prop :=
  ∀ p dest jump s, SpecSources s.cfg →
    (Written s.cpu.a → Gives (op p dest jump) p dest jump s (f _ s.cpu.a.value)) ∧
    (s.cfg.uninitRead = .fault → ¬ Written s.cpu.a → Faults (op p dest jump) s .uninitRegisterRead)

/-- M, the RAM word at the address in A (R144). -/
def memWord (s : State) : Word s.cfg.width := s.cpu.ram.read s.cpu.a.value.toNat

/-- The operation reads M and gives `f M`; with A unwritten, or out of range, it faults (R51). -/
def MOp (op : CompOp) (f : (W : Width) → Word W → Word W) : Prop :=
  ∀ p dest jump s, SpecSources s.cfg →
    (Written s.cpu.a → s.cpu.a.value.toNat < 65536 → Gives (op p dest jump) p dest jump s (f _ (memWord s))) ∧
    (s.cfg.uninitRead = .fault → ¬ Written s.cpu.a → Faults (op p dest jump) s .uninitRegisterRead) ∧
    (Written s.cpu.a → 65536 ≤ s.cpu.a.value.toNat → Faults (op p dest jump) s .memAddrOutOfRange)

/-- The operation reads D and A and gives `f D A`; with either unwritten it faults. -/
def DAOp (op : CompOp) (f : (W : Width) → Word W → Word W → Word W) : Prop :=
  ∀ p dest jump s, SpecSources s.cfg →
    (Written s.cpu.d → Written s.cpu.a →
      Gives (op p dest jump) p dest jump s (f _ s.cpu.d.value s.cpu.a.value)) ∧
    (s.cfg.uninitRead = .fault → ¬ (Written s.cpu.d ∧ Written s.cpu.a) →
      Faults (op p dest jump) s .uninitRegisterRead)

/-- The operation reads D and M and gives `f D M`; with D or A unwritten, or A out of range, it faults, D's fault first
(R151). -/
def DMOp (op : CompOp) (f : (W : Width) → Word W → Word W → Word W) : Prop :=
  ∀ p dest jump s, SpecSources s.cfg →
    (Written s.cpu.d → Written s.cpu.a → s.cpu.a.value.toNat < 65536 →
      Gives (op p dest jump) p dest jump s (f _ s.cpu.d.value (memWord s))) ∧
    (s.cfg.uninitRead = .fault → ¬ (Written s.cpu.d ∧ Written s.cpu.a) →
      Faults (op p dest jump) s .uninitRegisterRead) ∧
    (Written s.cpu.d → Written s.cpu.a → 65536 ≤ s.cpu.a.value.toNat → Faults (op p dest jump) s .memAddrOutOfRange)

/-! ### Words for any comp code -/

/-- The ALU's x: D, or 0 where zx = 1 (R145). -/
def xOf (s : State) (code : CompCode) : Word s.cfg.width :=
  if code[5] then 0#s.cfg.width.bits else s.cpu.d.value

/-- The ALU's y: M where a = 1, else A, or 0 where zy = 1 (R145). -/
def yOf (s : State) (code : CompCode) : Word s.cfg.width :=
  if code[6] then memWord s else if code[3] then 0#s.cfg.width.bits else s.cpu.a.value

/-- The ALU result of a comp code (R143, R145). -/
def outOf (s : State) (code : CompCode) : Word s.cfg.width := (alu (AluCtl.ofCode code) (xOf s code) (yOf s code)).out

/-- D as x is written, or is not read (R142). -/
def XOk (s : State) (code : CompCode) : Prop := code[5] = false → Written s.cpu.d

/-- A is written as the address of M, and is in range, or M is not addressed (R142, R144). -/
def MOk (s : State) (code : CompCode) (dest : Dest) : Prop :=
  (code[6] = true ∨ dest.m = true) → Written s.cpu.a ∧ s.cpu.a.value.toNat < 65536

/-- A as y is written, or is not read (R142). -/
def YOk (s : State) (code : CompCode) : Prop := code[6] = false → code[3] = false → Written s.cpu.a

/-- The word of a comp code under the state's print codes (R89). -/
def wordOf (s : State) (code : CompCode) (p : PrintMode) (dest : Dest) (jump : Jump) : InstrWord :=
  computeWord (printModeCode s.cfg.printCode p) code dest jump

/-- What the rule of a jump code says of every C-instruction that has it, once its ALU operands and its M address are read:
its bits; that D′ is tested, and D read for it, where the code reads D; that the jump goes to A′ exactly if the condition
holds, else PC advances; and its faults, where a read of an unwritten register faults. -/
def JumpRule (jump : Jump) (bits : BitVec 3) (readsD : Bool) (cond : Int → Prop) : Prop :=
  (∀ p code dest, fieldJump (computeWord p code dest jump) = bits) ∧
  ∀ code p dest (s : State), SpecSources s.cfg → XOk s code → MOk s code dest → YOk s code →
    let i := decodeComp code p dest jump
    let tested := (postD s dest (outOf s code)).toInt
    let dOk := readsD = true → dest.d = false → Written s.cpu.d
    (dOk → cond tested → (dest.a = false → Written s.cpu.a) →
      ∃ c : Cpu s.cfg.width, exec i s = .next { s with cpu := c } ∧ c.fault = s.cpu.fault ∧
        c.pc = (postA s dest (outOf s code)).toNat) ∧
    (dOk → ¬ cond tested →
      ∃ c : Cpu s.cfg.width, exec i s = .next { s with cpu := c } ∧ c.fault = s.cpu.fault ∧ c.pc = s.cpu.pc + 1) ∧
    (s.cfg.uninitRead = .fault → ¬ dOk → Faults i s .uninitRegisterRead) ∧
    (s.cfg.uninitRead = .fault → dOk → cond tested → dest.a = false → ¬ Written s.cpu.a →
      Faults i s .uninitRegisterRead)

/-- The closed form of each of the 64 ALU control settings (95_test_vectors.md section 2). -/
def aluClosedForm {W : Width} (x y : Word W) : (zx nx zy ny f no : Bool) → Word W
  | false, false, false, false, false, false => x &&& y
  | false, false, false, false, false, true => ~~~(x &&& y)
  | false, false, false, false, true, false => x + y
  | false, false, false, false, true, true => -x - y - 1#_
  | false, false, false, true, false, false => x &&& ~~~y
  | false, false, false, true, false, true => ~~~x ||| y
  | false, false, false, true, true, false => x - y - 1#_
  | false, false, false, true, true, true => y - x
  | false, false, true, false, false, false => 0#_
  | false, false, true, false, false, true => -1#_
  | false, false, true, false, true, false => x
  | false, false, true, false, true, true => ~~~x
  | false, false, true, true, false, false => x
  | false, false, true, true, false, true => ~~~x
  | false, false, true, true, true, false => x - 1#_
  | false, false, true, true, true, true => -x
  | false, true, false, false, false, false => ~~~x &&& y
  | false, true, false, false, false, true => x ||| ~~~y
  | false, true, false, false, true, false => y - x - 1#_
  | false, true, false, false, true, true => x - y
  | false, true, false, true, false, false => ~~~(x ||| y)
  | false, true, false, true, false, true => x ||| y
  | false, true, false, true, true, false => -x - y - 2#_
  | false, true, false, true, true, true => x + y + 1#_
  | false, true, true, false, false, false => 0#_
  | false, true, true, false, false, true => -1#_
  | false, true, true, false, true, false => ~~~x
  | false, true, true, false, true, true => x
  | false, true, true, true, false, false => ~~~x
  | false, true, true, true, false, true => x
  | false, true, true, true, true, false => -x - 2#_
  | false, true, true, true, true, true => x + 1#_
  | true, false, false, false, false, false => 0#_
  | true, false, false, false, false, true => -1#_
  | true, false, false, false, true, false => y
  | true, false, false, false, true, true => ~~~y
  | true, false, false, true, false, false => 0#_
  | true, false, false, true, false, true => -1#_
  | true, false, false, true, true, false => ~~~y
  | true, false, false, true, true, true => y
  | true, false, true, false, false, false => 0#_
  | true, false, true, false, false, true => -1#_
  | true, false, true, false, true, false => 0#_
  | true, false, true, false, true, true => -1#_
  | true, false, true, true, false, false => 0#_
  | true, false, true, true, false, true => -1#_
  | true, false, true, true, true, false => -1#_
  | true, false, true, true, true, true => 0#_
  | true, true, false, false, false, false => y
  | true, true, false, false, false, true => ~~~y
  | true, true, false, false, true, false => y - 1#_
  | true, true, false, false, true, true => -y
  | true, true, false, true, false, false => ~~~y
  | true, true, false, true, false, true => y
  | true, true, false, true, true, false => -y - 2#_
  | true, true, false, true, true, true => y + 1#_
  | true, true, true, false, false, false => 0#_
  | true, true, true, false, false, true => -1#_
  | true, true, true, false, true, false => -1#_
  | true, true, true, false, true, true => 0#_
  | true, true, true, true, false, false => -1#_
  | true, true, true, true, false, true => 0#_
  | true, true, true, true, true, false => -2#_
  | true, true, true, true, true, true => 1#_

/-! ### Words for the assembler -/

/-- The lines of a program text, numbered, without comments and blank lines (R82). -/
def linesOf (text : Text) : List (Nat × Line) := numberedLines 1 (splitLines text)

/-- Whether a line stands for an instruction: every line but a label definition (R84). -/
def isInstrLine (line : Nat × Line) : Bool :=
  match line.2 with
  | .label _ => false
  | .address _ => true
  | .compute _ => true

/-- The variables after the symbols of a list are resolved in order. -/
def afterAll (labels : SymbolTable) (vars : Variables) (symbols : List Text) : Variables :=
  symbols.foldl (fun vs y => (resolve labels vs y).2) vars

/-- The form of the variables of R86: the next address is 16 plus the number of names, the names are different from each
other and so are the addresses, and every address is one of those from 16 up to the next. -/
structure Allocated (vars : Variables) : Prop where
  next_eq : vars.next = 16 + vars.table.length
  names : (vars.table.map (·.1)).Nodup
  addresses : (vars.table.map (·.2)).Nodup
  range : ∀ entry ∈ vars.table, 16 ≤ entry.2 ∧ entry.2 < vars.next

/-- How many instructions a list of lines stands for. -/
def instrCount (lines : List (Nat × Line)) : Nat := (lines.filter isInstrLine).length

end Sys2Proof.Claims

open Sys2Proof Sys2Proof.Machine Sys2Proof.Claims

/-! ### Reset, runs and steps -/

/-- R35: after reset PC is 0, A and D are unwritten, RAM is `ram0`, the output stream is empty and no fault is recorded, for
every configuration, program and `ram0`. -/
def Obligations.ResetGivesTheStartState : Prop :=
  ∀ (cfg : Config) (rom : List InstrWord) (ram0 : Ram cfg.width),
    let s := State.load cfg rom ram0
    s.cpu.pc = 0 ∧ s.cpu.a.written = false ∧ s.cpu.d.written = false ∧ s.cpu.ram = ram0 ∧ s.rom = rom ∧
      s.cpu.out = [] ∧ s.cpu.fault = none

/-- The state after reset meets the invariant, `State.reset` among them. That an unwritten register holds
`registerResetValue` is the model's choice (log 1). -/
def Obligations.ResetMeetsTheInvariant : Prop :=
  Inv State.reset ∧
  ∀ (cfg : Config) (rom : List InstrWord) (ram0 : Ram cfg.width), ram0.wf = true → Inv (State.load cfg rom ram0)

/-- Every step keeps the invariant: RAM stays canonical, unwritten registers keep their reset value (log 1), and a recorded
fault stays precise. -/
def Obligations.StepKeepsTheInvariant : Prop :=
  ∀ s t : State, Inv s → step s = .next t → Inv t

/-- Along every run, from any state: the configuration, the ROM and `ram0` never change (R33, R60), the output stream is
only ever appended to (R27), and a state that is not the last has no fault recorded (R232). -/
def Obligations.RunsKeepProgramAndAppendOutput : Prop :=
  ∀ s t : State, Reaches s t →
    ∃ c : Cpu s.cfg.width, t = { s with cpu := c } ∧ (∃ evs, c.out = s.cpu.out ++ evs) ∧
      (s.isFaulted = true → t = s)

/-- R140: with no fault recorded and a word in ROM at PC, a step is the execution of the decoded word. -/
def Obligations.StepRunsTheDecodedInstruction : Prop :=
  ∀ (s : State) (w : InstrWord), s.cpu.fault = none → s.rom[s.cpu.pc]? = some w →
    step s = exec (decode s.cfg.printCode w) s

/-- R253, R232, R254: a step stops as halted exactly if no fault is recorded and PC ≥ L, it stops as faulted exactly if a
fault is recorded, it never refuses, and in every other state it answers a next state. -/
def Obligations.StepStopsExactlyAtTheEnds : Prop :=
  ∀ s : State,
    (step s = .fault .halted ↔ s.cpu.fault = none ∧ s.rom.length ≤ s.cpu.pc) ∧
    (step s = .fault .faulted ↔ s.cpu.fault ≠ none) ∧
    (s.cpu.fault = none → s.cpu.pc < s.rom.length → ∃ t, step s = .next t)

/-- Every instruction answers a next state in every state: no instruction is refused and none stops the machine itself. -/
def Obligations.EveryInstructionAnswersNext : Prop :=
  ∀ (i : Instr) (s : State), ∃ t, exec i s = .next t

/-! ### Encoding -/

/-- Decoding an encoded well-formed instruction gives it back, for every operand and every assignment of print codes. -/
def Obligations.DecodeInvertsEncode : Prop :=
  ∀ (pc : PrintCode) (i : Instr), i.wf = true → decode pc (encode pc i) = i

/-- Every 16-bit word decodes to a well-formed instruction whose word it is. -/
def Obligations.EncodeInvertsDecode : Prop :=
  ∀ (pc : PrintCode) (w : InstrWord), (decode pc w).wf = true ∧ encode pc (decode pc w) = w

/-- R70, R80: under the spec's print codes a word is an A-instruction exactly if `w[15] = 0`, and reserved exactly if
`w[15:13] = 111`. -/
def Obligations.LeadingBitsSelectTheGroup : Prop :=
  ∀ w : InstrWord,
    ((∃ imm, decode .spec w = .addr imm) ↔ w.extractLsb' 15 1 = 0b0#1) ∧
    ((∃ comp dest jump, decode .spec w = .reservedPrint comp dest jump) ↔ w.extractLsb' 13 3 = 0b111#3)

/-- Words written out from the tables of R71, R72 and R75–R78 decode to the instructions they stand for. -/
def Obligations.SampleWordsDecode : Prop :=
  decodeTableWord 16 0b0000000000000010 = some (.addr 2#15) ∧
  decodeTableWord 16 0b1000101010000111 = some (.zero .noPrint ⟨false, false, false⟩ .jmp) ∧
  decodeTableWord 16 0b1000001100001000 = some (.d .noPrint ⟨false, false, true⟩ .never) ∧
  decodeTableWord 16 0b1000110000010000 = some (.a .noPrint ⟨false, true, false⟩ .never) ∧
  decodeTableWord 16 0b1001110000100000 = some (.m .noPrint ⟨true, false, false⟩ .never) ∧
  decodeTableWord 16 0b1000010011010000 = some (.dMinusA .noPrint ⟨false, true, false⟩ .never) ∧
  decodeTableWord 16 0b1011000010011000 = some (.dPlusM .print ⟨false, true, true⟩ .never) ∧
  decodeTableWord 16 0b1000000001010000 = some (.nonCanonical 0b0000001#7 .noPrint ⟨false, true, false⟩ .never) ∧
  decodeTableWord 16 0b1110000000000000 = some (.reservedPrint 0b0000000#7 ⟨false, false, false⟩ .never)

/-! ### The A-instruction -/

/-- R130, R131: the words `0 imm` are `@imm`, for every assignment of print codes; `@imm` writes the zero-extended
immediate to A, which counts as written, advances PC, and changes nothing else; the value is below 32768 and not
negative. -/
def Obligations.AddressInstructionLoadsA : Prop :=
  ∀ (imm : BitVec 15) (s : State),
    decode s.cfg.printCode (0#1 ++ imm) = .addr imm ∧
    ∃ v : Word s.cfg.width, v.toNat = imm.toNat ∧ v.toNat < 32768 ∧ 0 ≤ v.toInt ∧
      exec (.addr imm) s = .next { s with cpu := { s.cpu with a := ⟨v, true⟩, pc := s.cpu.pc + 1 } }

/-! ### The comp operations -/

/-- R170–R172: `0`, `1` and `-1` read nothing and give 0, 1 and the all-ones word. -/
def Obligations.ConstantOperations : Prop :=
  (CompRule .zero 0b0101010#7 ∧ ConstantOp .zero fun W => 0#W.bits) ∧
  (CompRule .one 0b0111111#7 ∧ ConstantOp .one fun W => 1#W.bits) ∧
  (CompRule .negOne 0b0111010#7 ∧ ConstantOp .negOne fun W => BitVec.allOnes W.bits)

/-- R173, R176, R179, R182, R185: `D`, `!D`, `-D`, `D+1` and `D-1`. -/
def Obligations.DOperations : Prop :=
  (CompRule .d 0b0001100#7 ∧ DOp .d fun _ d => d) ∧
  (CompRule .notD 0b0001101#7 ∧ DOp .notD fun _ d => ~~~d) ∧
  (CompRule .negD 0b0001111#7 ∧ DOp .negD fun _ d => -d) ∧
  (CompRule .dPlusOne 0b0011111#7 ∧ DOp .dPlusOne fun _ d => d + 1#_) ∧
  (CompRule .dMinusOne 0b0001110#7 ∧ DOp .dMinusOne fun _ d => d - 1#_)

/-- R174, R177, R180, R183, R186: `A`, `!A`, `-A`, `A+1` and `A-1`. -/
def Obligations.AOperations : Prop :=
  (CompRule .a 0b0110000#7 ∧ AOp .a fun _ a => a) ∧
  (CompRule .notA 0b0110001#7 ∧ AOp .notA fun _ a => ~~~a) ∧
  (CompRule .negA 0b0110011#7 ∧ AOp .negA fun _ a => -a) ∧
  (CompRule .aPlusOne 0b0110111#7 ∧ AOp .aPlusOne fun _ a => a + 1#_) ∧
  (CompRule .aMinusOne 0b0110010#7 ∧ AOp .aMinusOne fun _ a => a - 1#_)

/-- R175, R178, R181, R184, R187: `M`, `!M`, `-M`, `M+1` and `M-1`. -/
def Obligations.MOperations : Prop :=
  (CompRule .m 0b1110000#7 ∧ MOp .m fun _ m => m) ∧
  (CompRule .notM 0b1110001#7 ∧ MOp .notM fun _ m => ~~~m) ∧
  (CompRule .negM 0b1110011#7 ∧ MOp .negM fun _ m => -m) ∧
  (CompRule .mPlusOne 0b1110111#7 ∧ MOp .mPlusOne fun _ m => m + 1#_) ∧
  (CompRule .mMinusOne 0b1110010#7 ∧ MOp .mMinusOne fun _ m => m - 1#_)

/-- R188, R190, R192, R194, R196: `D+A`, `D-A`, `A-D`, `D&A` and `D|A`. -/
def Obligations.DAndAOperations : Prop :=
  (CompRule .dPlusA 0b0000010#7 ∧ DAOp .dPlusA fun _ d a => d + a) ∧
  (CompRule .dMinusA 0b0010011#7 ∧ DAOp .dMinusA fun _ d a => d - a) ∧
  (CompRule .aMinusD 0b0000111#7 ∧ DAOp .aMinusD fun _ d a => a - d) ∧
  (CompRule .dAndA 0b0000000#7 ∧ DAOp .dAndA fun _ d a => d &&& a) ∧
  (CompRule .dOrA 0b0010101#7 ∧ DAOp .dOrA fun _ d a => d ||| a)

/-- R189, R191, R193, R195, R197: `D+M`, `D-M`, `M-D`, `D&M` and `D|M`. -/
def Obligations.DAndMOperations : Prop :=
  (CompRule .dPlusM 0b1000010#7 ∧ DMOp .dPlusM fun _ d m => d + m) ∧
  (CompRule .dMinusM 0b1010011#7 ∧ DMOp .dMinusM fun _ d m => d - m) ∧
  (CompRule .mMinusD 0b1000111#7 ∧ DMOp .mMinusD fun _ d m => m - d) ∧
  (CompRule .dAndM 0b1000000#7 ∧ DMOp .dAndM fun _ d m => d &&& m) ∧
  (CompRule .dOrM 0b1010101#7 ∧ DMOp .dOrM fun _ d m => d ||| m)

/-- R198: an instruction whose comp code has no mnemonic executes like a canonical one, its result by routing the code's
bits to the ALU: it reads D where zx = 0, M where a = 1 (also where zy = 1), and A where a = 0 and zy = 0. -/
def Obligations.NonCanonicalOperations : Prop :=
  ∀ code, isCanonical code = false → CompRule (.nonCanonical code) code ∧
    ∀ p dest jump (s : State), SpecSources s.cfg →
      let i := Instr.nonCanonical code p dest jump
      (XOk s code → (code[6] = true → Written s.cpu.a ∧ s.cpu.a.value.toNat < 65536) → YOk s code →
        Gives i p dest jump s (outOf s code)) ∧
      (s.cfg.uninitRead = .fault → ¬ XOk s code → Faults i s .uninitRegisterRead) ∧
      (s.cfg.uninitRead = .fault → code[6] = true ∨ code[3] = false → ¬ Written s.cpu.a →
        Faults i s .uninitRegisterRead) ∧
      (XOk s code → code[6] = true → Written s.cpu.a → 65536 ≤ s.cpu.a.value.toNat →
        Faults i s .memAddrOutOfRange)

/-- R199, R234: under `canonicalOnly` a comp code without a mnemonic faults before every other check, also in a word with
the reserved print code, and in every state. A canonical code does under `canonicalOnly` what it does under `bitRouted`,
its faults included, and it does not raise `NonCanonicalComp`. -/
def Obligations.NonCanonicalFaultsUnderCanonicalOnly : Prop :=
  ∀ code dest jump (s : State), s.cfg.compDecode = .canonicalOnly →
    (isCanonical code = false →
      (∀ p, exec (.nonCanonical code p dest jump) s =
        .next (faultedWith s .nonCanonicalComp (wordOf s code p dest jump))) ∧
      exec (.reservedPrint code dest jump) s =
        .next (faultedWith s .nonCanonicalComp (computeWord s.cfg.printCode.reserved code dest jump))) ∧
    (isCanonical code = true → ∀ p,
      (∃ c : Cpu s.cfg.width, exec (decodeComp code p dest jump) s = .next { s with cpu := c } ∧
        exec (decodeComp code p dest jump) (bitRouted s) = .next { bitRouted s with cpu := c }) ∧
      (s.cpu.fault = none → ∀ w,
        exec (decodeComp code p dest jump) s ≠ .next (faultedWith s .nonCanonicalComp w)))

/-- R80, R233: a word with the reserved print code faults with `ReservedPrintMode` in every state and has no other
effect, but where R199's check comes first. -/
def Obligations.ReservedPrintModeFaults : Prop :=
  ∀ code dest jump (s : State), s.cfg.compDecode = .bitRouted ∨ isCanonical code = true →
    exec (.reservedPrint code dest jump) s =
      .next (faultedWith s .reservedPrintMode (computeWord s.cfg.printCode.reserved code dest jump))

/-! ### The ALU -/

/-- R110, R112, R115: each of the 64 control settings gives its closed form, at both widths and for all inputs. -/
def Obligations.AluMatchesTheClosedForms : Prop :=
  ∀ (W : Width) (x y : Word W) (zx nx zy ny f no : Bool),
    (alu ⟨zx, nx, zy, ny, f, no⟩ x y).out = aluClosedForm x y zx nx zy ny f no

/-- R111, R114: zr is 1 iff the result is all-zero, ng is 1 iff its most significant bit is set, that is iff it is negative
as a two's-complement number. -/
def Obligations.AluFlagsDescribeTheResult : Prop :=
  ∀ (W : Width) (c : AluCtl) (x y : Word W),
    ((alu c x y).flags.zero = true ↔ (alu c x y).out = 0#W.bits) ∧
    ((alu c x y).flags.negative = true ↔ (alu c x y).out.getLsbD (W.bits - 1) = true) ∧
    ((alu c x y).flags.negative = true ↔ (alu c x y).out.toInt < 0)

/-! ### Faults -/

/-- R151: the checks of a C-instruction in their order, each clause with the checks before it passed. Where two items raise
one kind the clauses still stand apart. A faulted machine takes no further step, so a run records one fault. -/
def Obligations.FaultChecksInOrder : Prop :=
  ∀ code p dest jump (s : State), SpecSources s.cfg →
    let faults := fun kind =>
      exec (decodeComp code p dest jump) s = .next (faultedWith s kind (wordOf s code p dest jump))
    exec (.reservedPrint code dest jump) s =
      .next (faultedWith s .reservedPrintMode (computeWord s.cfg.printCode.reserved code dest jump)) ∧
    (s.cfg.uninitRead = .fault → ¬ XOk s code → faults .uninitRegisterRead) ∧
    (s.cfg.uninitRead = .fault → XOk s code → code[6] = true ∨ dest.m = true → ¬ Written s.cpu.a →
      faults .uninitRegisterRead) ∧
    (XOk s code → code[6] = true ∨ dest.m = true → Written s.cpu.a → 65536 ≤ s.cpu.a.value.toNat →
      faults .memAddrOutOfRange) ∧
    (s.cfg.uninitRead = .fault → XOk s code → MOk s code dest → ¬ YOk s code → faults .uninitRegisterRead) ∧
    (s.cfg.uninitRead = .fault → XOk s code → MOk s code dest → YOk s code → dest.d = false → jump ≠ .never →
      jump ≠ .jmp → ¬ Written s.cpu.d → faults .uninitRegisterRead) ∧
    (s.cfg.uninitRead = .fault → XOk s code → MOk s code dest → YOk s code →
      (dest.d = false → jump ≠ .never → jump ≠ .jmp → Written s.cpu.d) →
      taken s dest jump (outOf s code) = true → dest.a = false → ¬ Written s.cpu.a → faults .uninitRegisterRead) ∧
    (∀ t : State, t.isFaulted = true → step t = .fault .faulted)

/-- R232: an instruction that faults, under every configuration, sets the fault record to the kind, PC, its own word, and A
and D before it, and changes nothing else. -/
def Obligations.FaultsArePrecise : Prop :=
  ∀ (i : Instr) (s t : State), s.cpu.fault = none → exec i s = .next t → t.isFaulted = true →
    ∃ kind, t = faultedWith s kind (encode s.cfg.printCode i)

/-- R232, R28: a step that faults sets the record to the kind, PC, the word it fetched from ROM at PC, and A and D before
it; it changes nothing else; and the machine has no further step. -/
def Obligations.FaultRecordHoldsTheFetchedWord : Prop :=
  ∀ s t : State, step s = .next t → t.isFaulted = true →
    ∃ kind w, s.rom[s.cpu.pc]? = some w ∧ t = faultedWith s kind w ∧ step t = .fault .faulted

/-- R233: what must hold for an instruction to raise each kind, for all instructions and every configuration whose store
address is A_pre. -/
def Obligations.FaultKindsNeedTheirConditions : Prop :=
  ∀ (i : Instr) (s : State) (kind : FaultKind) (w : InstrWord), s.cpu.fault = none → s.cfg.mAddrSource = .preA →
    exec i s = .next (faultedWith s kind w) →
    (kind = .memAddrOutOfRange → s.cfg.width = .w64 ∧ 65536 ≤ s.cpu.a.value.toNat) ∧
    (kind = .reservedPrintMode → ∃ comp dest jump, i = .reservedPrint comp dest jump) ∧
    (kind = .uninitRegisterRead →
      s.cfg.uninitRead = .fault ∧ (s.cpu.a.written = false ∨ s.cpu.d.written = false)) ∧
    (kind = .nonCanonicalComp → s.cfg.compDecode = .canonicalOnly)

/-- R51: with W = 16 no instruction raises `MemAddrOutOfRange`, under every configuration. -/
def Obligations.NoRangeFaultAtSixteenBits : Prop :=
  ∀ (i : Instr) (s : State) (w : InstrWord), s.cpu.fault = none → s.cfg.width = .w16 →
    exec i s ≠ .next (faultedWith s .memAddrOutOfRange w)

/-- The model's choice of log 1: under `uninitRead = value` no instruction raises `UninitRegisterRead`, and every
instruction does what it would do with both registers written. Only the marks, and with them the registers in a fault
record, can differ. -/
def Obligations.HeldValuesCountAsWritten : Prop :=
  ∀ (i : Instr) (s : State), s.cfg.uninitRead = .value → s.cpu.fault = none →
    ∃ c c' : Cpu s.cfg.width, exec i s = .next { s with cpu := c } ∧ exec i (marked s) = .next { s with cpu := c' } ∧
      c.a.value = c'.a.value ∧ c.d.value = c'.d.value ∧ c.pc = c'.pc ∧ c.ram = c'.ram ∧ c.out = c'.out ∧
      c.fault.map (·.kind) = c'.fault.map (·.kind) ∧ c.fault.map (·.kind) ≠ some .uninitRegisterRead

/-! ### Jumps, and the alternative sources -/

/-- R214–R221: the eight jump codes, each with its bits and its condition on D′ read as a signed number. -/
def Obligations.JumpCodesCompareDWithZero : Prop :=
  JumpRule .never 0b000#3 false (fun _ => False) ∧ JumpRule .jgt 0b001#3 true (fun v => 0 < v) ∧
  JumpRule .jeq 0b010#3 true (fun v => v = 0) ∧ JumpRule .jge 0b011#3 true (fun v => 0 ≤ v) ∧
  JumpRule .jlt 0b100#3 true (fun v => v < 0) ∧ JumpRule .jne 0b101#3 true (fun v => v ≠ 0) ∧
  JumpRule .jle 0b110#3 true (fun v => v ≤ 0) ∧ JumpRule .jmp 0b111#3 false (fun _ => True)

/-- R211: under `jumpOperand = aluOut` the jump tests the ALU result, and D is not read for it. -/
def Obligations.JumpTestsTheAluResult : Prop :=
  ∀ code p dest jump (s : State), s.cfg.compDecode = .bitRouted → s.cfg.mAddrSource = .preA →
    s.cfg.jumpTargetSource = .postA → s.cfg.printValue = .aluOut → s.cfg.jumpOperand = .aluOut →
    XOk s code → MOk s code dest → YOk s code →
    (dest.a = false → signedTaken jump (outOf s code).toInt = true → Written s.cpu.a) →
    exec (decodeComp code p dest jump) s =
      .next (afterWith s p dest (outOf s code) (signedTaken jump (outOf s code).toInt)
        (postA s dest (outOf s code)).toNat s.cpu.a.value.toNat (outOf s code))

/-- R212, R142: under `jumpTargetSource = preA` a taken jump goes to A before the instruction, which it reads also where
the instruction writes A. -/
def Obligations.JumpGoesToTheOldA : Prop :=
  ∀ code p dest jump (s : State), s.cfg.compDecode = .bitRouted → s.cfg.mAddrSource = .preA →
    s.cfg.jumpOperand = .postWriteD → s.cfg.printValue = .aluOut → s.cfg.jumpTargetSource = .preA →
    XOk s code → MOk s code dest → YOk s code →
    (dest.d = false → jump ≠ .never → jump ≠ .jmp → Written s.cpu.d) →
    ((taken s dest jump (outOf s code) = true → Written s.cpu.a) →
      exec (decodeComp code p dest jump) s =
        .next (afterWith s p dest (outOf s code) (taken s dest jump (outOf s code)) s.cpu.a.value.toNat
          s.cpu.a.value.toNat (outOf s code))) ∧
    (s.cfg.uninitRead = .fault → taken s dest jump (outOf s code) = true → ¬ Written s.cpu.a →
      exec (decodeComp code p dest jump) s = .next (faultedWith s .uninitRegisterRead (wordOf s code p dest jump)))

/-- R144, R142: under `mAddrSource = postA` an instruction that writes A and M stores at the A it writes, and reads A_pre
only for its other roles. The fault for an address out of range is the model's (log 8). -/
def Obligations.StoreGoesToTheNewA : Prop :=
  ∀ code p dest jump (s : State), s.cfg.compDecode = .bitRouted → s.cfg.jumpTargetSource = .postA →
    s.cfg.jumpOperand = .postWriteD → s.cfg.printValue = .aluOut → s.cfg.mAddrSource = .postA →
    dest.a = true → dest.m = true →
    XOk s code → (code[6] = true → Written s.cpu.a ∧ s.cpu.a.value.toNat < 65536) → YOk s code →
    ((outOf s code).toNat < 65536 → (dest.d = false → jump ≠ .never → jump ≠ .jmp → Written s.cpu.d) →
      exec (decodeComp code p dest jump) s =
        .next (afterWith s p dest (outOf s code) (taken s dest jump (outOf s code)) (outOf s code).toNat
          (outOf s code).toNat (outOf s code))) ∧
    (65536 ≤ (outOf s code).toNat →
      exec (decodeComp code p dest jump) s = .next (faultedWith s .memAddrOutOfRange (wordOf s code p dest jump)))

/-- R148, R142: under `printValue = postWriteD` a printing instruction prints D′, and one that does not write D reads it. -/
def Obligations.PrintEmitsThePostWriteD : Prop :=
  ∀ code p dest jump (s : State), s.cfg.compDecode = .bitRouted → s.cfg.mAddrSource = .preA →
    s.cfg.jumpTargetSource = .postA → s.cfg.jumpOperand = .postWriteD → s.cfg.printValue = .postWriteD →
    XOk s code → MOk s code dest → YOk s code → FieldsOk s dest jump (outOf s code) →
    ((p ≠ .noPrint → dest.d = false → Written s.cpu.d) →
      exec (decodeComp code p dest jump) s =
        .next (afterWith s p dest (outOf s code) (taken s dest jump (outOf s code)) (postA s dest (outOf s code)).toNat
          s.cpu.a.value.toNat (postD s dest (outOf s code)))) ∧
    (s.cfg.uninitRead = .fault → p ≠ .noPrint → dest.d = false → ¬ Written s.cpu.d →
      exec (decodeComp code p dest jump) s = .next (faultedWith s .uninitRegisterRead (wordOf s code p dest jump)))

/-! ### Frames -/

/-- The frame of a C-instruction whose dest has no M, under every configuration: every RAM word reads as before; A and D are
unchanged unless dest names them; the stream is unchanged unless the instruction prints, and a print only appends; if the
fault record changes, nothing else does; configuration, ROM and `ram0` never change. -/
def Obligations.FrameOfNonStoringInstructions : Prop :=
  ∀ code p dest jump (s t : State), dest.m = false → exec (decodeComp code p dest jump) s = .next t →
    ∃ c : Cpu s.cfg.width, t = { s with cpu := c } ∧
      (∀ addr, c.ram.read addr = s.cpu.ram.read addr) ∧
      (dest.a = false → c.a = s.cpu.a) ∧ (dest.d = false → c.d = s.cpu.d) ∧
      (p = .noPrint → c.out = s.cpu.out) ∧ (∃ evs, c.out = s.cpu.out ++ evs) ∧
      (c.fault ≠ s.cpu.fault → c = { s.cpu with fault := c.fault })

/-- The frame of a C-instruction whose dest has M, under every configuration: every RAM word but the one at the store
address reads as before, that address computed from the ALU result; the rest as in the frame above. -/
def Obligations.FrameOfStoringInstructions : Prop :=
  ∀ code p dest jump (s t : State), dest.m = true → exec (decodeComp code p dest jump) s = .next t →
    ∃ c : Cpu s.cfg.width, t = { s with cpu := c } ∧
      (∀ addr, storeAddress s.cfg dest (outOf s code) s.cpu ≠ addr → c.ram.read addr = s.cpu.ram.read addr) ∧
      (dest.a = false → c.a = s.cpu.a) ∧ (dest.d = false → c.d = s.cpu.d) ∧
      (p = .noPrint → c.out = s.cpu.out) ∧ (∃ evs, c.out = s.cpu.out ++ evs) ∧
      (c.fault ≠ s.cpu.fault → c = { s.cpu with fault := c.fault })

/-- R22: once a register is written it stays written, through every instruction. -/
def Obligations.WrittenRegistersStayWritten : Prop :=
  ∀ (i : Instr) (s t : State), exec i s = .next t →
    (s.cpu.a.written = true → t.cpu.a.written = true) ∧ (s.cpu.d.written = true → t.cpu.d.written = true)

/-- R60: no instruction writes ROM, so what a later fetch reads at an index is what it would have read before. -/
def Obligations.RomIsNeverWritten : Prop :=
  ∀ (i : Instr) (s t : State), exec i s = .next t → t.rom = s.rom ∧ t.cfg = s.cfg

/-- R145: where zx = 1 the value of D cannot matter. Two states that differ in D alone stay so through an instruction that
neither reads nor writes D. -/
def Obligations.UnreadDDoesNotMatter : Prop :=
  ∀ code p dest jump (s : State) (d : Reg s.cfg.width) (c : Cpu s.cfg.width), code[5] = true →
    dest.d = false → jump = .never ∨ jump = .jmp ∨ s.cfg.jumpOperand = .aluOut →
    p = .noPrint ∨ s.cfg.printValue = .aluOut → s.cpu.fault = none →
    exec (decodeComp code p dest jump) s = .next { s with cpu := c } → c.fault = none →
    exec (decodeComp code p dest jump) { s with cpu := { s.cpu with d := d } } =
      .next { s with cpu := { c with d := d } }

/-! ### Memory -/

/-- R50, R57, R61: in a canonical RAM a read gives the word last stored at its address, and every other address reads as
before; the stored RAM is canonical again. The addresses of SCREEN and KBD are no exception. -/
def Obligations.ReadGivesTheLastStore : Prop :=
  ∀ (W : Width) (ram : Ram W) (addr b : Nat) (v : Word W), ram.wf = true → addr < 65536 →
    (ram.write addr v).wf = true ∧ (ram.write addr v).read b = if b = addr then v else ram.read b

/-- Two canonical RAMs that read alike at all 65536 addresses are the same list: RAM is what R50 says it is. -/
def Obligations.EqualMemoriesAreEqualData : Prop :=
  ∀ (W : Width) (ram ram' : Ram W), ram.wf = true → ram'.wf = true →
    (∀ addr, addr < 65536 → ram.read addr = ram'.read addr) → ram = ram'

/-! ### The ports -/

/-- R34 (`ram_we`, `ram_addr`, `ram_wdata`): with the spec's store address, a step stores the port data at the port address
if the write enable is 1, and leaves RAM alone if it is 0. -/
def Obligations.PortsDescribeTheStore : Prop :=
  ∀ s t : State, s.cfg.mAddrSource = .preA → step s = .next t →
    ∃ c : Cpu s.cfg.width, t = { s with cpu := c } ∧
      ((portsOf s).ramWe = false → c.ram = s.cpu.ram) ∧
      ((portsOf s).ramWe = true → ∃ addr v, (portsOf s).ramAddr = some addr ∧ (portsOf s).ramWdata = some v ∧
        c.ram = s.cpu.ram.write addr.toNat v)

/-- R34 (`ram_wdata`, `ram_addr`, `ram_rdata`): while a C-instruction executes whose ALU operands can be read, the write
data is the ALU result, whether it stores or not and whether it then faults or not; and on every machine whose A is written
and below 2^16, the address is A's low 16 bits and the read data the RAM word there. The model's choices (log 15): the
write data of a word that faults before the ALU, for its print code or under `canonicalOnly`, and the address and the read
data on a halted or a faulted machine. -/
def Obligations.PortsShowTheAluResult : Prop :=
  ∀ s : State,
    (∀ w, s.cpu.fault = none → s.rom[s.cpu.pc]? = some w → isCompute w = true → XOk s (fieldComp w) →
      ((fieldComp w)[6] = true → Written s.cpu.a ∧ s.cpu.a.value.toNat < 65536) → YOk s (fieldComp w) →
      (portsOf s).ramWdata = some (outOf s (fieldComp w))) ∧
    (Written s.cpu.a → s.cpu.a.value.toNat < 65536 →
      (∃ addr, (portsOf s).ramAddr = some addr ∧ addr.toNat = s.cpu.a.value.toNat) ∧
      (portsOf s).ramRdata = some (memWord s))

/-- R34 (`out_valid`, `out_kind`, `out_data`): a step appends exactly the event the ports show, and none if they show
none. -/
def Obligations.PortsDescribeTheOutput : Prop :=
  ∀ s t : State, step s = .next t →
    ∃ c : Cpu s.cfg.width, t = { s with cpu := c } ∧
      ((portsOf s).outValid = false → c.out = s.cpu.out) ∧
      ((portsOf s).outValid = true → ∃ kind v, (portsOf s).outKind = some kind ∧ (portsOf s).outData = some v ∧
        c.out = s.cpu.out ++ [if kind then OutEvent.chr v else OutEvent.dec v])

/-- R34, R260: a clock edge with `rst` gives the state of R35; without it, one instruction while running, and nothing once
the machine is halted or faulted. That `rst` keeps the configuration, the ROM and `ram0` is the model's choice (log 15). -/
def Obligations.ClockEdgeResetsOrSteps : Prop :=
  ∀ s : State,
    (∃ c : Cpu s.cfg.width, clockEdge true s = { s with cpu := c } ∧ c.pc = 0 ∧ c.a.written = false ∧
      c.d.written = false ∧ c.ram = s.ram0 ∧ c.out = [] ∧ c.fault = none) ∧
    (∀ t, step s = .next t → clockEdge false s = t) ∧
    ((portsOf s).halted = true ∨ (portsOf s).fault = true → clockEdge false s = s)

/-- R148: the rendering of a stream is the renderings of its events in order with nothing between them, whatever the two
renderings of R7 are. R148 and D13 say only of `Dec` events that no separator stands between them; that none stands before
or after a `Chr` event is the model's deduction (log 14). -/
def Obligations.OutputRendersInOrder : Prop :=
  ∀ (W : Width) (renderDecimal renderChar : Word W → String) (xs ys : List (OutEvent W)) (v : Word W),
    renderOutput renderDecimal renderChar (xs ++ ys) =
      renderOutput renderDecimal renderChar xs ++ renderOutput renderDecimal renderChar ys ∧
    renderOutput renderDecimal renderChar (xs ++ [.dec v]) = renderOutput renderDecimal renderChar xs ++ renderDecimal v ∧
    renderOutput renderDecimal renderChar (xs ++ [.chr v]) = renderOutput renderDecimal renderChar xs ++ renderChar v

/-! ### The assembler -/

/-- R79, R88: every word the assembler gives is an A-instruction or a C-instruction with a canonical comp code and a legal
print mode. -/
def Obligations.AssembledWordsAreLegal : Prop :=
  ∀ (pc : PrintCode) (text : Text) (ws : List InstrWord), assemble pc text = .ok ws →
    ∀ w ∈ ws, (∃ imm, decode pc w = .addr imm) ∨
      ∃ code p dest jump, isCanonical code = true ∧ decode pc w = decodeComp code p dest jump

/-- R84: the program has one word for each line that is no label, comment or blank line. -/
def Obligations.AssemblerCountsInstructions : Prop :=
  ∀ (pc : PrintCode) (text : Text) (ws : List InstrWord), assemble pc text = .ok ws →
    ws.length = instrCount (linesOf text)

/-- R84: a label's value is the index of the instruction after its definition, the number of instruction lines before it.
That the last of several definitions counts is the model's choice (log 16). -/
def Obligations.LabelsNameTheNextInstruction : Prop :=
  ∀ (before rest : List (Nat × Line)) (n : Nat) (name : Text),
    (∀ line ∈ rest, line.2 ≠ .label name) →
    (collectLabels [] 0 (before ++ (n, .label name) :: rest)).lookup name = some (instrCount before)

/-- R85: a symbol is a decimal literal, else a label, else a predefined name, else a variable. -/
def Obligations.SymbolsResolveInOrder : Prop :=
  ∀ (labels : SymbolTable) (vars : Variables) (symbol : Text),
    (∀ v, literal? symbol = some v → resolve labels vars symbol = (v, vars)) ∧
    (literal? symbol = none → ∀ v, labels.lookup symbol = some v → resolve labels vars symbol = (v, vars)) ∧
    (literal? symbol = none → labels.lookup symbol = none → ∀ v, predefined.lookup symbol = some v →
      resolve labels vars symbol = (v, vars)) ∧
    (literal? symbol = none → labels.lookup symbol = none → predefined.lookup symbol = none →
      ∀ v, vars.table.lookup symbol = some v → resolve labels vars symbol = (v, vars))

/-- R86: with no variable yet the next address is 16; a name that is no literal, no label, not predefined and not seen
before gets the next address, which is 16 plus the number of names before it, is recorded, and the next address grows by
one; every resolution keeps the variables in this form, no address given twice; and once a symbol is resolved, it resolves
to the same value after any further resolutions, and allocates nothing. That the count goes on through the addresses of
SCREEN and KBD is the model's choice (log 19). -/
def Obligations.VariablesCountFromSixteen : Prop :=
  ∀ labels : SymbolTable,
    (Allocated .start ∧ Variables.start.next = 16) ∧
    (∀ (vars : Variables) (x : Text), literal? x = none → labels.lookup x = none → predefined.lookup x = none →
      vars.table.lookup x = none →
      resolve labels vars x = (vars.next, ⟨(x, vars.next) :: vars.table, vars.next + 1⟩)) ∧
    (∀ (vars : Variables) (x : Text), Allocated vars → Allocated (resolve labels vars x).2) ∧
    (∀ (vars : Variables) (x : Text) (later : List Text),
      let after := afterAll labels (resolve labels vars x).2 later
      resolve labels after x = ((resolve labels vars x).1, after))

/-- R85: an A-instruction line whose symbol resolves above 32767 stops the assembler with an error, and one that resolves
to at most 32767 becomes that immediate. -/
def Obligations.AddressesAboveFifteenBitsAreErrors : Prop :=
  ∀ (labels : SymbolTable) (vars : Variables) (n : Nat) (symbol : Text),
    let v := (resolve labels vars symbol).1
    (32767 < v → ∀ rest, assembleLines labels vars ((n, .address symbol) :: rest) = .error (.addressRange n)) ∧
    (v ≤ 32767 → ∃ imm : BitVec 15, imm.toNat = v ∧
      assembleLines labels vars [(n, .address symbol)] = .ok [.addr imm])
end

