-- ==== Sys2Proof/Laws/State.lean ====
section
/-! SUPPORT. One lemma for each field of each update of the state, so that no later proof unfolds a record update. -/

namespace Sys2Proof.Machine

variable {W : Width}

@[simp] theorem Reg.reset_value : (Reg.reset W).value = registerResetValue W := rfl
@[simp] theorem Reg.reset_written : (Reg.reset W).written = false := rfl
@[simp] theorem Reg.ofValue_value (v : Word W) : (Reg.ofValue v).value = v := rfl
@[simp] theorem Reg.ofValue_written (v : Word W) : (Reg.ofValue v).written = true := rfl
@[simp] theorem Reg.update_true (r : Reg W) (v : Word W) : r.update true v = Reg.ofValue v := rfl
@[simp] theorem Reg.update_false (r : Reg W) (v : Word W) : r.update false v = r := rfl

@[simp] theorem Cpu.reset_a (m : Ram W) : (Cpu.reset m).a = Reg.reset W := rfl
@[simp] theorem Cpu.reset_d (m : Ram W) : (Cpu.reset m).d = Reg.reset W := rfl
@[simp] theorem Cpu.reset_pc (m : Ram W) : (Cpu.reset m).pc = 0 := rfl
@[simp] theorem Cpu.reset_ram (m : Ram W) : (Cpu.reset m).ram = m := rfl
@[simp] theorem Cpu.reset_out (m : Ram W) : (Cpu.reset m).out = [] := rfl
@[simp] theorem Cpu.reset_fault (m : Ram W) : (Cpu.reset m).fault = none := rfl

@[simp] theorem State.load_cfg (cfg : Config) (rom : List InstrWord) (m : Ram cfg.width) :
    (State.load cfg rom m).cfg = cfg := rfl
@[simp] theorem State.load_rom (cfg : Config) (rom : List InstrWord) (m : Ram cfg.width) :
    (State.load cfg rom m).rom = rom := rfl
@[simp] theorem State.load_ram0 (cfg : Config) (rom : List InstrWord) (m : Ram cfg.width) :
    (State.load cfg rom m).ram0 = m := rfl
@[simp] theorem State.load_cpu (cfg : Config) (rom : List InstrWord) (m : Ram cfg.width) :
    (State.load cfg rom m).cpu = Cpu.reset m := rfl

@[simp] theorem Width.bits_w16 : Width.w16.bits = 16 := rfl
@[simp] theorem Width.bits_w64 : Width.w64.bits = 64 := rfl

/-- With W = 16 every value is a RAM address (R51). -/
theorem toNat_lt_ramSize (hW : W = .w16) (v : Word W) : v.toNat < ramSize := by
  subst hW
  exact v.isLt

variable (s : State) (kind : FaultKind) (w : InstrWord)

@[simp] theorem State.raise_cfg : (s.raise kind w).cfg = s.cfg := rfl
@[simp] theorem State.raise_rom : (s.raise kind w).rom = s.rom := rfl
@[simp] theorem State.raise_ram0 : (s.raise kind w).ram0 = s.ram0 := rfl
@[simp] theorem State.raise_a : (s.raise kind w).cpu.a = s.cpu.a := rfl
@[simp] theorem State.raise_d : (s.raise kind w).cpu.d = s.cpu.d := rfl
@[simp] theorem State.raise_pc : (s.raise kind w).cpu.pc = s.cpu.pc := rfl
@[simp] theorem State.raise_ram : (s.raise kind w).cpu.ram = s.cpu.ram := rfl
@[simp] theorem State.raise_out : (s.raise kind w).cpu.out = s.cpu.out := rfl
@[simp] theorem State.raise_fault :
    (s.raise kind w).cpu.fault = some ⟨kind, s.cpu.pc, w, s.cpu.a, s.cpu.d⟩ := rfl

variable (c : Cpu W) (dest : Dest) (e : Effect W)

@[simp] theorem Cpu.commit_a : (c.commit dest e).a = c.a.update dest.a e.out := rfl
@[simp] theorem Cpu.commit_d : (c.commit dest e).d = c.d.update dest.d e.out := rfl
@[simp] theorem Cpu.commit_pc : (c.commit dest e).pc = e.nextPc := rfl
@[simp] theorem Cpu.commit_ram :
    (c.commit dest e).ram = if dest.m then c.ram.write e.storeAddr e.out else c.ram := rfl
@[simp] theorem Cpu.commit_out : (c.commit dest e).out = c.out ++ e.event.toList := rfl
@[simp] theorem Cpu.commit_fault : (c.commit dest e).fault = c.fault := rfl

@[simp] theorem State.withWord_cfg : (s.withWord w).cfg = s.cfg := rfl
@[simp] theorem State.withWord_rom : (s.withWord w).rom = placeWord w s.cpu.pc s.rom := rfl
@[simp] theorem State.withWord_a : (s.withWord w).cpu.a = s.cpu.a := rfl
@[simp] theorem State.withWord_d : (s.withWord w).cpu.d = s.cpu.d := rfl
@[simp] theorem State.withWord_pc : (s.withWord w).cpu.pc = s.cpu.pc := rfl
@[simp] theorem State.withWord_ram : (s.withWord w).cpu.ram = s.cpu.ram := rfl
@[simp] theorem State.withWord_out : (s.withWord w).cpu.out = s.cpu.out := rfl
@[simp] theorem State.withWord_fault : (s.withWord w).cpu.fault = none := rfl

@[simp] theorem placeWord_getElem (n : Nat) (rom : List InstrWord) : (placeWord w n rom)[n]? = some w := by
  induction n generalizing rom with
  | zero => cases rom <;> rfl
  | succ n ih => cases rom <;> simp [placeWord, ih]

end Sys2Proof.Machine
end

