-- ==== Sys2Proof/Laws/Compute.lean ====
section
/-! SUPPORT. What the shared operations of a C-instruction can do, said once: each check and each operand read, the evaluate
phase, and `compute`. -/

namespace Sys2Proof.Machine

variable {W : Width}

theorem readReg_ok {u : UninitRead} {r : Reg W} (h : readable u r = true) : readReg u r = .ok r.value := by
  simp [readReg, h]

theorem readReg_error {u : UninitRead} {r : Reg W} (h : readable u r = false) :
    readReg u r = .error .uninitRegisterRead := by
  simp [readReg, h]

theorem readReg_eq_ok {u : UninitRead} {r : Reg W} {v : Word W} (h : readReg u r = .ok v) :
    readable u r = true ∧ v = r.value := by
  unfold readReg at h
  split at h
  · next hr => exact ⟨hr, (Except.ok.inj h).symm⟩
  · cases h

theorem readReg_eq_error {u : UninitRead} {r : Reg W} {k : FaultKind} (h : readReg u r = .error k) :
    readable u r = false ∧ k = .uninitRegisterRead := by
  unfold readReg at h
  split at h
  · cases h
  · next hr => exact ⟨by simpa using hr, (Except.error.inj h).symm⟩

theorem checkAddr_ok {addr : Nat} (h : addr < ramSize) : checkAddr addr = .ok () := if_pos h

theorem checkAddr_error {addr : Nat} (h : ramSize ≤ addr) : checkAddr addr = .error .memAddrOutOfRange :=
  if_neg (by omega)

theorem checkAddr_eq_ok {addr : Nat} (h : checkAddr addr = .ok ()) : addr < ramSize := by
  unfold checkAddr at h
  split at h
  · assumption
  · cases h

/-- From a bind that answers, both parts. -/
theorem bind_eq_ok {ε α β : Type} {x : Except ε α} {f : α → Except ε β} {b : β} (h : (x >>= f) = .ok b) :
    ∃ a, x = .ok a ∧ f a = .ok b := by
  cases x with
  | error e => cases h
  | ok a => exact ⟨a, rfl, h⟩

/-- From a bind that fails, the part that failed. -/
theorem bind_eq_error {ε α β : Type} {x : Except ε α} {f : α → Except ε β} {e : ε} (h : (x >>= f) = .error e) :
    x = .error e ∨ ∃ a, x = .ok a ∧ f a = .error e := by
  cases x with
  | error e' => exact .inl (congrArg Except.error (Except.error.inj h))
  | ok a => exact .inr ⟨a, rfl, h⟩

@[simp] theorem ok_bind_eq {ε α β : Type} (a : α) (f : α → Except ε β) : (Except.ok a >>= f) = f a := rfl

@[simp] theorem error_bind_eq {ε α β : Type} (e : ε) (f : α → Except ε β) :
    ((Except.error e : Except ε α) >>= f) = .error e := rfl

@[simp] theorem pure_eq_ok {ε α : Type} (a : α) : (pure a : Except ε α) = .ok a := rfl

/-- What an evaluate phase that answers has found: every check passed, and each part of the effect is what its own function
gives. -/
theorem evaluate_eq_ok {cfg : Config} {code : CompCode} {p : PrintMode} {dest : Dest} {jump : Jump} {c : Cpu cfg.width}
    {e : Effect cfg.width} (h : evaluate cfg code p dest jump c = .ok e) :
    ∃ x y taken, checkComp cfg code = .ok () ∧ xOperand cfg code c = .ok x ∧
      checkPreAddress cfg code dest c = .ok () ∧ yOperand cfg code c = .ok y ∧
      e.out = (alu (AluCtl.ofCode code) x y).out ∧ checkPostAddress cfg dest e.out = .ok () ∧
      jumpTaken cfg dest jump (alu (AluCtl.ofCode code) x y) c = .ok taken ∧
      nextPc cfg dest taken e.out c = .ok e.nextPc ∧ printEvent cfg p dest e.out c = .ok e.event ∧
      e.storeAddr = storeAddress cfg dest e.out c := by
  unfold evaluate at h
  obtain ⟨_, h1, h⟩ := bind_eq_ok h
  obtain ⟨x, h2, h⟩ := bind_eq_ok h
  obtain ⟨_, h3, h⟩ := bind_eq_ok h
  obtain ⟨y, h4, h⟩ := bind_eq_ok h
  obtain ⟨_, h5, h⟩ := bind_eq_ok h
  obtain ⟨taken, h6, h⟩ := bind_eq_ok h
  obtain ⟨next, h7, h⟩ := bind_eq_ok h
  obtain ⟨event, h8, h⟩ := bind_eq_ok h
  cases h
  exact ⟨x, y, taken, h1, h2, h3, h4, rfl, h5, h6, h7, h8, rfl⟩

/-- An effect that stores has its address in range: M was checked by A_pre or by A′. -/
theorem evaluate_storeAddr_lt {cfg : Config} {code : CompCode} {p : PrintMode} {dest : Dest} {jump : Jump}
    {c : Cpu cfg.width} {e : Effect cfg.width} (h : evaluate cfg code p dest jump c = .ok e) (hm : dest.m = true) :
    e.storeAddr < ramSize := by
  obtain ⟨x, y, taken, -, -, h3, -, -, h5, -, -, -, hs⟩ := evaluate_eq_ok h
  rw [hs, storeAddress]
  split
  · next hp =>
    simp only [checkPostAddress, hm, hp, Bool.and_self, if_true] at h5
    exact checkAddr_eq_ok h5
  · next hp =>
    have hp : storesAtPostA cfg dest = false := by simpa using hp
    simp only [checkPreAddress, addressesByPreA, hm, hp, Bool.not_false, Bool.and_self, Bool.or_true, if_true] at h3
    obtain ⟨a, ha, h3⟩ := bind_eq_ok h3
    rw [(readReg_eq_ok ha).2] at h3
    exact checkAddr_eq_ok h3

/-- A register is unreadable only under the fault policy and only while unwritten. -/
theorem unreadable {u : UninitRead} {r : Reg W} (h : readable u r = false) : u = .fault ∧ r.written = false := by
  cases u <;> simp_all [readable]

theorem checkAddr_eq_error {addr : Nat} {k : FaultKind} (h : checkAddr addr = .error k) :
    k = .memAddrOutOfRange ∧ ramSize ≤ addr := by
  unfold checkAddr at h
  split at h
  · cases h
  · exact ⟨(Except.error.inj h).symm, by omega⟩

/-- Why a read of an unwritten register fails, for either register. -/
abbrev UninitCause (cfg : Config) (c : Cpu cfg.width) : Prop :=
  cfg.uninitRead = .fault ∧ (c.a.written = false ∨ c.d.written = false)

theorem readReg_a_error {cfg : Config} {c : Cpu cfg.width} {k : FaultKind} (h : readReg cfg.uninitRead c.a = .error k) :
    k = .uninitRegisterRead ∧ UninitCause cfg c :=
  have hr := readReg_eq_error h
  ⟨hr.2, (unreadable hr.1).1, .inl (unreadable hr.1).2⟩

theorem readReg_d_error {cfg : Config} {c : Cpu cfg.width} {k : FaultKind} (h : readReg cfg.uninitRead c.d = .error k) :
    k = .uninitRegisterRead ∧ UninitCause cfg c :=
  have hr := readReg_eq_error h
  ⟨hr.2, (unreadable hr.1).1, .inr (unreadable hr.1).2⟩

theorem readPostD_error {cfg : Config} {dest : Dest} {out : Word cfg.width} {c : Cpu cfg.width} {k : FaultKind}
    (h : readPostD cfg dest out c = .error k) : k = .uninitRegisterRead ∧ UninitCause cfg c := by
  unfold readPostD at h
  split at h
  · cases h
  · exact readReg_d_error h

theorem jumpTaken_error {cfg : Config} {dest : Dest} {jump : Jump} {r : AluResult cfg.width} {c : Cpu cfg.width}
    {k : FaultKind} (h : jumpTaken cfg dest jump r c = .error k) : k = .uninitRegisterRead ∧ UninitCause cfg c := by
  unfold jumpTaken jumpFlags at h
  split at h
  · cases h
  · split at h
    · cases h
    · rcases bind_eq_error h with h | ⟨_, _, h⟩
      · split at h
        · cases h
        · rcases bind_eq_error h with h | ⟨_, _, h⟩
          · exact readPostD_error h
          · cases h
      · cases h

theorem nextPc_error {cfg : Config} {dest : Dest} {taken : Bool} {out : Word cfg.width} {c : Cpu cfg.width}
    {k : FaultKind} (h : nextPc cfg dest taken out c = .error k) : k = .uninitRegisterRead ∧ UninitCause cfg c := by
  unfold nextPc jumpTarget at h
  split at h
  · rcases bind_eq_error h with h | ⟨_, _, h⟩
    · split at h
      · cases h
      · exact readReg_a_error h
    · cases h
  · cases h

theorem printEvent_error {cfg : Config} {p : PrintMode} {dest : Dest} {out : Word cfg.width} {c : Cpu cfg.width}
    {k : FaultKind} (h : printEvent cfg p dest out c = .error k) : k = .uninitRegisterRead ∧ UninitCause cfg c := by
  have hv : ∀ k, printedValue cfg dest out c = .error k → k = .uninitRegisterRead ∧ UninitCause cfg c := by
    intro k h
    unfold printedValue at h
    split at h
    · cases h
    · exact readPostD_error h
  cases p with
  | noPrint => cases h
  | print =>
    rcases bind_eq_error h with h | ⟨_, _, h⟩
    · exact hv _ h
    · cases h
  | printChar =>
    rcases bind_eq_error h with h | ⟨_, _, h⟩
    · exact hv _ h
    · cases h

/-- Why an evaluate phase fails: each fault kind with what must hold for it. -/
theorem evaluate_eq_error {cfg : Config} {code : CompCode} {p : PrintMode} {dest : Dest} {jump : Jump}
    {c : Cpu cfg.width} {k : FaultKind} (h : evaluate cfg code p dest jump c = .error k) :
    (k = .nonCanonicalComp ∧ cfg.compDecode = .canonicalOnly ∧ isCanonical code = false) ∨
    (k = .uninitRegisterRead ∧ UninitCause cfg c) ∨
    (k = .memAddrOutOfRange ∧ addressesByPreA cfg code dest = true ∧ ramSize ≤ preAddress c) ∨
    (k = .memAddrOutOfRange ∧ dest.m = true ∧ storesAtPostA cfg dest = true ∧
      ∃ out : Word cfg.width, ramSize ≤ out.toNat) := by
  unfold evaluate at h
  rcases bind_eq_error h with h | ⟨_, _, h⟩
  · unfold checkComp at h
    split at h
    · next hc => exact .inl ⟨(Except.error.inj h).symm, hc⟩
    · cases h
  rcases bind_eq_error h with h | ⟨x, _, h⟩
  · unfold xOperand at h
    split at h
    · cases h
    · exact .inr (.inl (readReg_d_error h))
  rcases bind_eq_error h with h | ⟨_, _, h⟩
  · unfold checkPreAddress at h
    split at h
    · next hp =>
      rcases bind_eq_error h with h | ⟨a, ha, h⟩
      · exact .inr (.inl (readReg_a_error h))
      · rw [(readReg_eq_ok ha).2] at h
        exact .inr (.inr (.inl ⟨(checkAddr_eq_error h).1, hp, (checkAddr_eq_error h).2⟩))
    · cases h
  rcases bind_eq_error h with h | ⟨y, _, h⟩
  · unfold yOperand at h
    split at h
    · cases h
    · split at h
      · cases h
      · exact .inr (.inl (readReg_a_error h))
  rcases bind_eq_error h with h | ⟨_, _, h⟩
  · unfold checkPostAddress at h
    split at h
    · next hp =>
      have hp : dest.m = true ∧ storesAtPostA cfg dest = true := by simpa using hp
      exact .inr (.inr (.inr ⟨(checkAddr_eq_error h).1, hp.1, hp.2, _, (checkAddr_eq_error h).2⟩))
    · cases h
  rcases bind_eq_error h with h | ⟨_, _, h⟩
  · exact .inr (.inl (jumpTaken_error h))
  rcases bind_eq_error h with h | ⟨_, _, h⟩
  · exact .inr (.inl (nextPc_error h))
  rcases bind_eq_error h with h | ⟨_, _, h⟩
  · exact .inr (.inl (printEvent_error h))
  cases h

/-- `compute` on a state whose evaluate phase answers: the effect is committed (R141). -/
theorem compute_ok {code : CompCode} {p : PrintMode} {dest : Dest} {jump : Jump} {s : State} {e : Effect s.cfg.width}
    (h : evaluate s.cfg code p dest jump s.cpu = .ok e) :
    compute code p dest jump s = .next { s with cpu := s.cpu.commit dest e } := by
  simp [compute, h]

/-- `compute` on a state whose evaluate phase fails: the fault is recorded and nothing else changes (R232). -/
theorem compute_error {code : CompCode} {p : PrintMode} {dest : Dest} {jump : Jump} {s : State} {kind : FaultKind}
    (h : evaluate s.cfg code p dest jump s.cpu = .error kind) :
    compute code p dest jump s = .next (s.raise kind (computeWord (printModeCode s.cfg.printCode p) code dest jump)) := by
  simp [compute, h]

/-- Everything `compute` can do. -/
theorem compute_cases (code : CompCode) (p : PrintMode) (dest : Dest) (jump : Jump) (s : State) :
    (∃ e, evaluate s.cfg code p dest jump s.cpu = .ok e ∧
      compute code p dest jump s = .next { s with cpu := s.cpu.commit dest e }) ∨
    (∃ kind, evaluate s.cfg code p dest jump s.cpu = .error kind ∧ compute code p dest jump s =
      .next (s.raise kind (computeWord (printModeCode s.cfg.printCode p) code dest jump))) := by
  cases h : evaluate s.cfg code p dest jump s.cpu with
  | ok e => exact .inl ⟨e, rfl, compute_ok h⟩
  | error kind => exact .inr ⟨kind, rfl, compute_error h⟩

end Sys2Proof.Machine
end

