-- ==== Sys2Proof/Laws/Encoding.lean ====
section
/-! SUPPORT. The fields of an encoded word, and that each field's decoder undoes its encoder. -/

namespace Sys2Proof

open Machine

variable (p : BitVec 2) (code : CompCode) (dest : Dest) (jump : Jump)

theorem isCompute_computeWord : isCompute (computeWord p code dest jump) = true := by
  simp only [isCompute, computeWord, ← BitVec.getLsbD_eq_getElem, BitVec.getLsbD_append]; rfl

theorem fieldPrint_computeWord : fieldPrint (computeWord p code dest jump) = p := by
  ext i hi
  simp only [fieldPrint, computeWord, BitVec.getElem_extractLsb', BitVec.getLsbD_append]
  rw [if_neg (by omega), if_neg (by omega), if_neg (by omega), if_pos (by omega)]
  rw [BitVec.getLsbD_eq_getElem (by omega)]
  congr 1; omega

theorem fieldComp_computeWord : fieldComp (computeWord p code dest jump) = code := by
  ext i hi
  simp only [fieldComp, computeWord, BitVec.getElem_extractLsb', BitVec.getLsbD_append]
  rw [if_neg (by omega), if_neg (by omega), if_pos (by omega)]
  rw [BitVec.getLsbD_eq_getElem (by omega)]
  congr 1; omega

theorem fieldDest_computeWord : fieldDest (computeWord p code dest jump) = destCode dest := by
  ext i hi
  simp only [fieldDest, computeWord, BitVec.getElem_extractLsb', BitVec.getLsbD_append]
  rw [if_neg (by omega), if_pos (by omega)]
  rw [BitVec.getLsbD_eq_getElem (by omega)]
  congr 1; omega

theorem fieldJump_computeWord : fieldJump (computeWord p code dest jump) = jumpCode jump := by
  ext i hi
  simp only [fieldJump, computeWord, BitVec.getElem_extractLsb', BitVec.getLsbD_append]
  rw [if_pos (by omega)]
  rw [BitVec.getLsbD_eq_getElem (by omega)]
  congr 1; omega

theorem isCompute_addressWord (imm : BitVec 15) : isCompute (addressWord imm) = false := by
  simp only [isCompute, addressWord, ← BitVec.getLsbD_eq_getElem, BitVec.getLsbD_append]; rfl

theorem fieldImm_addressWord (imm : BitVec 15) : fieldImm (addressWord imm) = imm := by
  ext i hi
  simp only [fieldImm, addressWord, BitVec.getElem_extractLsb', BitVec.getLsbD_append]
  rw [if_pos (by omega), BitVec.getLsbD_eq_getElem (by omega)]
  congr 1; omega

@[simp] theorem destOfCode_destCode : destOfCode (destCode dest) = dest := by
  obtain ⟨a, d, m⟩ := dest
  cases a <;> cases d <;> cases m <;> rfl

@[simp] theorem destCode_destOfCode (c : BitVec 3) : destCode (destOfCode c) = c := by
  revert c; decide

@[simp] theorem jumpOfCode_jumpCode : jumpOfCode (jumpCode jump) = jump := by
  cases jump <;> rfl

@[simp] theorem jumpCode_jumpOfCode (c : BitVec 3) : jumpCode (jumpOfCode c) = c := by
  revert c; decide

theorem PrintCode.codes_ne (pc : PrintCode) :
    pc.noPrint ≠ pc.print ∧ pc.noPrint ≠ pc.printChar ∧ pc.noPrint ≠ pc.reserved ∧ pc.print ≠ pc.printChar ∧
      pc.print ≠ pc.reserved ∧ pc.printChar ≠ pc.reserved := by
  have h := pc.distinct
  simp only [List.nodup_cons, List.mem_cons, List.not_mem_nil, or_false, not_or] at h
  obtain ⟨⟨h1, h2, h3⟩, ⟨h4, h5⟩, h6, -⟩ := h
  exact ⟨h1, h2, h3, h4, h5, h6⟩

@[simp] theorem printModeOfCode_printModeCode (pc : PrintCode) (m : PrintMode) :
    printModeOfCode pc (printModeCode pc m) = some m := by
  obtain ⟨h1, h2, -, h4, -, -⟩ := pc.codes_ne
  cases m
  · simp [printModeOfCode, printModeCode]
  · simp [printModeOfCode, printModeCode, h1.symm]
  · simp [printModeOfCode, printModeCode, h2.symm, h4.symm]

@[simp] theorem printModeOfCode_reserved (pc : PrintCode) : printModeOfCode pc pc.reserved = none := by
  obtain ⟨-, -, h3, -, h5, h6⟩ := pc.codes_ne
  simp [printModeOfCode, h3.symm, h5.symm, h6.symm]

theorem printModeCode_of_some {pc : PrintCode} {c : BitVec 2} {m : PrintMode} (h : printModeOfCode pc c = some m) :
    printModeCode pc m = c := by
  unfold printModeOfCode at h
  split at h
  · next hc => cases h; exact hc.symm
  · split at h
    · next hc => cases h; exact hc.symm
    · split at h
      · next hc => cases h; exact hc.symm
      · cases h

/-- Four different codes leave no fifth: a code that is no mode's is the reserved one. -/
theorem eq_reserved_of_none {pc : PrintCode} {c : BitVec 2} (h : printModeOfCode pc c = none) : c = pc.reserved := by
  obtain ⟨n, p, ch, r, hd⟩ := pc
  have key : ∀ n p ch r c : BitVec 2, [n, p, ch, r].Nodup → c ≠ n → c ≠ p → c ≠ ch → c = r := by decide
  simp only [printModeOfCode] at h
  split at h
  · cases h
  · split at h
    · cases h
    · split at h
      · cases h
      · exact key n p ch r c hd ‹_› ‹_› ‹_›

/-- A word with opcode bit 1 is the word of its four fields. -/
theorem computeWord_fields {w : InstrWord} (h : isCompute w = true) :
    computeWord (fieldPrint w) (fieldComp w) (destOfCode (fieldDest w)) (jumpOfCode (fieldJump w)) = w := by
  rw [computeWord, destCode_destOfCode, jumpCode_jumpOfCode]
  ext i hi
  simp only [BitVec.getElem_append, fieldPrint, fieldComp, fieldDest, fieldJump, BitVec.getElem_extractLsb']
  split
  · simp [BitVec.getLsbD_eq_getElem hi]
  · split
    · rw [← BitVec.getLsbD_eq_getElem hi]; congr 1; omega
    · split
      · rw [← BitVec.getLsbD_eq_getElem hi]; congr 1; omega
      · split
        · rw [← BitVec.getLsbD_eq_getElem hi]; congr 1; omega
        · have : i = 15 := by omega
          subst this
          simpa [isCompute] using h.symm

/-- A word with opcode bit 0 is the word of its immediate. -/
theorem addressWord_fieldImm {w : InstrWord} (h : isCompute w = false) : addressWord (fieldImm w) = w := by
  rw [addressWord]
  ext i hi
  simp only [BitVec.getElem_append, fieldImm, BitVec.getElem_extractLsb']
  split
  · simp [BitVec.getLsbD_eq_getElem hi]
  · have : i = 15 := by omega
    subst this
    simpa [isCompute] using h.symm

end Sys2Proof
end

