-- ==== Sys2Proof/Laws/Step.lean ====
section
/-! SUPPORT. What a step can do, said once. -/

namespace Sys2Proof.Machine

/-- Everything `step` can do (R140): stop on a faulted or a halted machine, or execute the fetched word. -/
theorem step_cases (s : State) :
    (s.isFaulted = true ∧ step s = .fault .faulted) ∨
    (s.isFaulted = false ∧ s.fetch = none ∧ step s = .fault .halted) ∨
    (∃ w, s.isFaulted = false ∧ s.fetch = some w ∧ step s = exec (decode s.cfg.printCode w) s) := by
  unfold step
  cases hf : s.isFaulted with
  | true => exact .inl ⟨rfl, rfl⟩
  | false =>
    cases hw : s.fetch with
    | none => exact .inr (.inl ⟨rfl, rfl, rfl⟩)
    | some w => exact .inr (.inr ⟨w, rfl, rfl, rfl⟩)

/-- A step that answers a next state executed the word at PC, with no fault recorded before. -/
theorem step_next {s t : State} (h : step s = .next t) :
    ∃ w, s.isFaulted = false ∧ s.fetch = some w ∧ exec (decode s.cfg.printCode w) s = .next t := by
  obtain ⟨-, h'⟩ | ⟨-, -, h'⟩ | ⟨w, hf, hw, h'⟩ := step_cases s <;> rw [h'] at h
  · cases h
  · cases h
  · exact ⟨w, hf, hw, h⟩

/-- The word that `withFetchWord` stores is the one the next step runs. -/
theorem step_withFetchWord (s : State) (nbits w : Nat) :
    step (s.withFetchWord nbits w) =
      exec (decode s.cfg.printCode (BitVec.ofNat 16 (w % 2 ^ nbits))) (s.withFetchWord nbits w) := by
  simp [step, State.withFetchWord, State.isFaulted, State.fetch]

end Sys2Proof.Machine
end

