-- ==== Sys2Proof/Laws/Exec.lean ====
section
/-! SUPPORT. A legal C-instruction word runs the shared datapath with its own comp code, whichever of the 29 constructors it
decodes to; and what the two flags of a value say of it as a signed number. -/

namespace Sys2Proof.Machine

/-- Each of the 128 comp codes, decoded and executed, is `compute` with that code (R75, R198). -/
theorem exec_decodeComp (code : CompCode) (p : PrintMode) (dest : Dest) (jump : Jump) (s : State) :
    exec (decodeComp code p dest jump) s = compute code p dest jump s := by
  have key : ∀ n : Fin 128, exec (decodeComp ⟨n⟩ p dest jump) s = compute ⟨n⟩ p dest jump s := by
    intro n
    match n with
    | ⟨n, hn⟩ => revert hn; revert n; intro n hn; interval_cases n <;> rfl
  exact key code.toFin

/-- The word of a decoded comp code is the word of that code (R75, R89). -/
theorem encode_decodeComp (pc : PrintCode) (code : CompCode) (p : PrintMode) (dest : Dest) (jump : Jump) :
    encode pc (decodeComp code p dest jump) = computeWord (printModeCode pc p) code dest jump := by
  have key : ∀ n : Fin 128,
      encode pc (decodeComp ⟨n⟩ p dest jump) = computeWord (printModeCode pc p) ⟨n⟩ dest jump := by
    intro n
    match n with
    | ⟨n, hn⟩ => interval_cases n <;> rfl
  exact key code.toFin

/-- Every instruction but the A-instruction and the reserved print mode is a decoded comp code, if it is well formed. -/
theorem wf_cases (i : Instr) (h : i.wf = true) :
    (∃ imm, i = .addr imm) ∨ (∃ comp dest jump, i = .reservedPrint comp dest jump) ∨
      ∃ code p dest jump, i = decodeComp code p dest jump := by
  cases i
  case addr imm => exact .inl ⟨imm, rfl⟩
  case reservedPrint c d j => exact .inr (.inl ⟨c, d, j, rfl⟩)
  case nonCanonical c p d j =>
    refine .inr (.inr ⟨c, p, d, j, ?_⟩)
    have key : ∀ n : Fin 128, isCanonical ⟨n⟩ = false → findComp ⟨n⟩ compTable = none := by decide
    have hc : isCanonical c = false := by simpa [Instr.wf] using h
    simp [decodeComp, key c.toFin hc]
  case zero p dest jump => exact .inr (.inr ⟨0b0101010#7, p, dest, jump, rfl⟩)
  case one p dest jump => exact .inr (.inr ⟨0b0111111#7, p, dest, jump, rfl⟩)
  case negOne p dest jump => exact .inr (.inr ⟨0b0111010#7, p, dest, jump, rfl⟩)
  case d p dest jump => exact .inr (.inr ⟨0b0001100#7, p, dest, jump, rfl⟩)
  case a p dest jump => exact .inr (.inr ⟨0b0110000#7, p, dest, jump, rfl⟩)
  case m p dest jump => exact .inr (.inr ⟨0b1110000#7, p, dest, jump, rfl⟩)
  case notD p dest jump => exact .inr (.inr ⟨0b0001101#7, p, dest, jump, rfl⟩)
  case notA p dest jump => exact .inr (.inr ⟨0b0110001#7, p, dest, jump, rfl⟩)
  case notM p dest jump => exact .inr (.inr ⟨0b1110001#7, p, dest, jump, rfl⟩)
  case negD p dest jump => exact .inr (.inr ⟨0b0001111#7, p, dest, jump, rfl⟩)
  case negA p dest jump => exact .inr (.inr ⟨0b0110011#7, p, dest, jump, rfl⟩)
  case negM p dest jump => exact .inr (.inr ⟨0b1110011#7, p, dest, jump, rfl⟩)
  case dPlusOne p dest jump => exact .inr (.inr ⟨0b0011111#7, p, dest, jump, rfl⟩)
  case aPlusOne p dest jump => exact .inr (.inr ⟨0b0110111#7, p, dest, jump, rfl⟩)
  case mPlusOne p dest jump => exact .inr (.inr ⟨0b1110111#7, p, dest, jump, rfl⟩)
  case dMinusOne p dest jump => exact .inr (.inr ⟨0b0001110#7, p, dest, jump, rfl⟩)
  case aMinusOne p dest jump => exact .inr (.inr ⟨0b0110010#7, p, dest, jump, rfl⟩)
  case mMinusOne p dest jump => exact .inr (.inr ⟨0b1110010#7, p, dest, jump, rfl⟩)
  case dPlusA p dest jump => exact .inr (.inr ⟨0b0000010#7, p, dest, jump, rfl⟩)
  case dPlusM p dest jump => exact .inr (.inr ⟨0b1000010#7, p, dest, jump, rfl⟩)
  case dMinusA p dest jump => exact .inr (.inr ⟨0b0010011#7, p, dest, jump, rfl⟩)
  case dMinusM p dest jump => exact .inr (.inr ⟨0b1010011#7, p, dest, jump, rfl⟩)
  case aMinusD p dest jump => exact .inr (.inr ⟨0b0000111#7, p, dest, jump, rfl⟩)
  case mMinusD p dest jump => exact .inr (.inr ⟨0b1000111#7, p, dest, jump, rfl⟩)
  case dAndA p dest jump => exact .inr (.inr ⟨0b0000000#7, p, dest, jump, rfl⟩)
  case dAndM p dest jump => exact .inr (.inr ⟨0b1000000#7, p, dest, jump, rfl⟩)
  case dOrA p dest jump => exact .inr (.inr ⟨0b0010101#7, p, dest, jump, rfl⟩)
  case dOrM p dest jump => exact .inr (.inr ⟨0b1010101#7, p, dest, jump, rfl⟩)

theorem flagsOf_zero {W : Width} (v : Word W) : (flagsOf v).zero = true ↔ v.toInt = 0 := by
  have : v.toInt = 0 ↔ v = 0#W.bits := by
    rw [← BitVec.toInt_inj]; simp
  simp [flagsOf, this]

theorem flagsOf_negative {W : Width} (v : Word W) : (flagsOf v).negative = true ↔ v.toInt < 0 := by
  have := BitVec.msb_eq_toInt (x := v)
  simp [flagsOf, this]

end Sys2Proof.Machine
end

