-- ==== Sys2Proof/Laws/PerInstr.lean ====
section
/-! SUPPORT. Statements for all instructions, one lemma for each constructor: the opcode bit of every instruction's word
(R70). -/

namespace Sys2Proof.Laws.OpcodeBit

/-- The leading bit of an instruction's word is 0 for the A-instruction and 1 for every other (R70), whatever the print
codes. -/
def Statement (i : Instr) : Prop :=
  ∀ pc : PrintCode, isCompute (encode pc i) = match i with
    | .addr _ => false
    | _ => true

theorem addr (imm : BitVec 15) : Statement (.addr imm) := fun _ => isCompute_addressWord imm
theorem zero (p : PrintMode) (dest : Dest) (jump : Jump) : Statement (.zero p dest jump) :=
  fun _ => isCompute_computeWord _ _ _ _
theorem one (p : PrintMode) (dest : Dest) (jump : Jump) : Statement (.one p dest jump) :=
  fun _ => isCompute_computeWord _ _ _ _
theorem negOne (p : PrintMode) (dest : Dest) (jump : Jump) : Statement (.negOne p dest jump) :=
  fun _ => isCompute_computeWord _ _ _ _
theorem d (p : PrintMode) (dest : Dest) (jump : Jump) : Statement (.d p dest jump) :=
  fun _ => isCompute_computeWord _ _ _ _
theorem a (p : PrintMode) (dest : Dest) (jump : Jump) : Statement (.a p dest jump) :=
  fun _ => isCompute_computeWord _ _ _ _
theorem m (p : PrintMode) (dest : Dest) (jump : Jump) : Statement (.m p dest jump) :=
  fun _ => isCompute_computeWord _ _ _ _
theorem notD (p : PrintMode) (dest : Dest) (jump : Jump) : Statement (.notD p dest jump) :=
  fun _ => isCompute_computeWord _ _ _ _
theorem notA (p : PrintMode) (dest : Dest) (jump : Jump) : Statement (.notA p dest jump) :=
  fun _ => isCompute_computeWord _ _ _ _
theorem notM (p : PrintMode) (dest : Dest) (jump : Jump) : Statement (.notM p dest jump) :=
  fun _ => isCompute_computeWord _ _ _ _
theorem negD (p : PrintMode) (dest : Dest) (jump : Jump) : Statement (.negD p dest jump) :=
  fun _ => isCompute_computeWord _ _ _ _
theorem negA (p : PrintMode) (dest : Dest) (jump : Jump) : Statement (.negA p dest jump) :=
  fun _ => isCompute_computeWord _ _ _ _
theorem negM (p : PrintMode) (dest : Dest) (jump : Jump) : Statement (.negM p dest jump) :=
  fun _ => isCompute_computeWord _ _ _ _
theorem dPlusOne (p : PrintMode) (dest : Dest) (jump : Jump) : Statement (.dPlusOne p dest jump) :=
  fun _ => isCompute_computeWord _ _ _ _
theorem aPlusOne (p : PrintMode) (dest : Dest) (jump : Jump) : Statement (.aPlusOne p dest jump) :=
  fun _ => isCompute_computeWord _ _ _ _
theorem mPlusOne (p : PrintMode) (dest : Dest) (jump : Jump) : Statement (.mPlusOne p dest jump) :=
  fun _ => isCompute_computeWord _ _ _ _
theorem dMinusOne (p : PrintMode) (dest : Dest) (jump : Jump) : Statement (.dMinusOne p dest jump) :=
  fun _ => isCompute_computeWord _ _ _ _
theorem aMinusOne (p : PrintMode) (dest : Dest) (jump : Jump) : Statement (.aMinusOne p dest jump) :=
  fun _ => isCompute_computeWord _ _ _ _
theorem mMinusOne (p : PrintMode) (dest : Dest) (jump : Jump) : Statement (.mMinusOne p dest jump) :=
  fun _ => isCompute_computeWord _ _ _ _
theorem dPlusA (p : PrintMode) (dest : Dest) (jump : Jump) : Statement (.dPlusA p dest jump) :=
  fun _ => isCompute_computeWord _ _ _ _
theorem dPlusM (p : PrintMode) (dest : Dest) (jump : Jump) : Statement (.dPlusM p dest jump) :=
  fun _ => isCompute_computeWord _ _ _ _
theorem dMinusA (p : PrintMode) (dest : Dest) (jump : Jump) : Statement (.dMinusA p dest jump) :=
  fun _ => isCompute_computeWord _ _ _ _
theorem dMinusM (p : PrintMode) (dest : Dest) (jump : Jump) : Statement (.dMinusM p dest jump) :=
  fun _ => isCompute_computeWord _ _ _ _
theorem aMinusD (p : PrintMode) (dest : Dest) (jump : Jump) : Statement (.aMinusD p dest jump) :=
  fun _ => isCompute_computeWord _ _ _ _
theorem mMinusD (p : PrintMode) (dest : Dest) (jump : Jump) : Statement (.mMinusD p dest jump) :=
  fun _ => isCompute_computeWord _ _ _ _
theorem dAndA (p : PrintMode) (dest : Dest) (jump : Jump) : Statement (.dAndA p dest jump) :=
  fun _ => isCompute_computeWord _ _ _ _
theorem dAndM (p : PrintMode) (dest : Dest) (jump : Jump) : Statement (.dAndM p dest jump) :=
  fun _ => isCompute_computeWord _ _ _ _
theorem dOrA (p : PrintMode) (dest : Dest) (jump : Jump) : Statement (.dOrA p dest jump) :=
  fun _ => isCompute_computeWord _ _ _ _
theorem dOrM (p : PrintMode) (dest : Dest) (jump : Jump) : Statement (.dOrM p dest jump) :=
  fun _ => isCompute_computeWord _ _ _ _
theorem nonCanonical (comp : CompCode) (p : PrintMode) (dest : Dest) (jump : Jump) :
    Statement (.nonCanonical comp p dest jump) :=
  fun _ => isCompute_computeWord _ _ _ _
theorem reservedPrint (comp : CompCode) (dest : Dest) (jump : Jump) : Statement (.reservedPrint comp dest jump) :=
  fun _ => isCompute_computeWord _ _ _ _

end Sys2Proof.Laws.OpcodeBit
end

