-- ==== Sys2Proof/Laws/Ports.lean ====
section
/-! SUPPORT. The ALU result that the ports show is the one that an instruction without a fault commits. -/

namespace Sys2Proof.Machine

/-- The checks of the operand reads are among those of the evaluate phase, so that an effect's result is the ALU result. -/
theorem aluResult_of_evaluate {cfg : Config} {code : CompCode} {p : PrintMode} {dest : Dest} {jump : Jump}
    {c : Cpu cfg.width} {e : Effect cfg.width} (h : evaluate cfg code p dest jump c = .ok e) :
    ∃ r, aluResult cfg code c = .ok r ∧ r.out = e.out := by
  obtain ⟨x, y, taken, -, hx, ha, hy, ho, -⟩ := evaluate_eq_ok h
  have ha : checkPreAddress cfg code ⟨false, false, false⟩ c = .ok () := by
    cases hr : compReadsM code <;> simp_all [checkPreAddress, addressesByPreA]
  exact ⟨_, by simp [aluResult, hx, ha, hy], ho.symm⟩

/-- A store by A_pre has a valid port address. -/
theorem ramAddressValid_of_check {s : State} {code : CompCode} {dest : Dest}
    (h : checkPreAddress s.cfg code dest s.cpu = .ok ()) (ha : addressesByPreA s.cfg code dest = true) :
    ramAddressValid s = true := by
  rw [checkPreAddress, if_pos ha] at h
  obtain ⟨v, hv, h⟩ := bind_eq_ok h
  obtain ⟨hr, rfl⟩ := readReg_eq_ok hv
  simp [ramAddressValid, hr, preAddress, checkAddr_eq_ok h]

end Sys2Proof.Machine
end

