-- ==== Sys2Proof/Laws/Ram.lean ====
section
/-! SUPPORT. RAM: read after write, and every write keeps the canonical form. -/

namespace Sys2Proof.Machine

variable {W : Width}

@[simp] theorem Ram.read_nil (addr : Nat) : Ram.read ([] : Ram W) addr = unlistedWord W := rfl

theorem Ram.wfFrom_cons {lo k : Nat} {v : Word W} {rest : Ram W} :
    Ram.wfFrom lo ((k, v) :: rest) = true ↔
      lo ≤ k ∧ k < ramSize ∧ v ≠ unlistedWord W ∧ Ram.wfFrom (k + 1) rest = true := by
  simp [Ram.wfFrom, and_assoc]

theorem Ram.wfFrom_mono {lo lo' : Nat} (h : lo' ≤ lo) {m : Ram W} (hm : m.wfFrom lo = true) :
    m.wfFrom lo' = true := by
  cases m with
  | nil => rfl
  | cons e rest =>
    obtain ⟨hk, hs, hv, hr⟩ := Ram.wfFrom_cons.mp hm
    exact Ram.wfFrom_cons.mpr ⟨by omega, hs, hv, hr⟩

/-- An address below every listed one is unlisted. -/
theorem Ram.read_below {lo addr : Nat} {m : Ram W} (hm : m.wfFrom lo = true) (h : addr < lo) :
    m.read addr = unlistedWord W := by
  induction m generalizing lo with
  | nil => rfl
  | cons e rest ih =>
    obtain ⟨hk, _, _, hr⟩ := Ram.wfFrom_cons.mp hm
    rw [Ram.read, if_neg (by omega)]
    exact ih hr (by omega)

theorem Ram.read_insert (m : Ram W) (addr : Nat) (w : Word W) (b : Nat) :
    (m.insert addr w).read b = if b = addr then w else m.read b := by
  induction m with
  | nil => simp [Ram.insert, Ram.read, eq_comm]
  | cons e rest ih =>
    rw [Ram.insert]
    split
    · by_cases hb : b = addr
      · subst hb; simp [Ram.read]
      · have hb' : ¬ addr = b := fun h => hb h.symm
        simp [Ram.read, hb, hb']
    · split
      · next he =>
        by_cases hb : b = addr
        · subst hb; simp [Ram.read]
        · have hb' : ¬ addr = b := fun h => hb h.symm
          have : ¬ e.1 = b := by omega
          simp [Ram.read, hb, hb', this]
      · rw [Ram.read, ih]
        by_cases he : e.1 = b
        · have : ¬ b = addr := by omega
          simp [Ram.read, he, this]
        · simp [Ram.read, he]

theorem Ram.read_erase_other (m : Ram W) {addr b : Nat} (h : b ≠ addr) : (m.erase addr).read b = m.read b := by
  induction m with
  | nil => rfl
  | cons e rest ih =>
    rw [Ram.erase]
    split
    · have : ¬ e.1 = b := by omega
      simp [Ram.read, this]
    · simp [Ram.read, ih]

theorem Ram.read_erase_same {lo : Nat} {m : Ram W} (hm : m.wfFrom lo = true) (addr : Nat) :
    (m.erase addr).read addr = unlistedWord W := by
  induction m generalizing lo with
  | nil => rfl
  | cons e rest ih =>
    obtain ⟨hk, _, _, hr⟩ := Ram.wfFrom_cons.mp hm
    rw [Ram.erase]
    split
    · exact Ram.read_below hr (by omega)
    · next he => simpa [Ram.read, he] using ih hr

/-- A store leaves every other address alone; this needs no canonical form. -/
theorem Ram.read_write_other (m : Ram W) {addr b : Nat} (w : Word W) (h : b ≠ addr) :
    (m.write addr w).read b = m.read b := by
  rw [Ram.write]
  split
  · exact Ram.read_erase_other m h
  · simp [Ram.read_insert, h]

theorem Ram.wfFrom_insert {lo : Nat} {m : Ram W} (hm : m.wfFrom lo = true) {addr : Nat} {w : Word W} (hlo : lo ≤ addr)
    (ha : addr < ramSize) (hw : w ≠ unlistedWord W) : (m.insert addr w).wfFrom lo = true := by
  induction m generalizing lo with
  | nil => exact Ram.wfFrom_cons.mpr ⟨hlo, ha, hw, rfl⟩
  | cons e rest ih =>
    obtain ⟨hk, hs, hv, hr⟩ := Ram.wfFrom_cons.mp hm
    rw [Ram.insert]
    split
    · exact Ram.wfFrom_cons.mpr ⟨hlo, ha, hw, Ram.wfFrom_cons.mpr ⟨by omega, hs, hv, hr⟩⟩
    · split
      · next he => exact Ram.wfFrom_cons.mpr ⟨hlo, ha, hw, he ▸ hr⟩
      · exact Ram.wfFrom_cons.mpr ⟨hk, hs, hv, ih hr (by omega)⟩

theorem Ram.wfFrom_erase {lo : Nat} {m : Ram W} (hm : m.wfFrom lo = true) (addr : Nat) :
    (m.erase addr).wfFrom lo = true := by
  induction m generalizing lo with
  | nil => rfl
  | cons e rest ih =>
    obtain ⟨hk, hs, hv, hr⟩ := Ram.wfFrom_cons.mp hm
    rw [Ram.erase]
    split
    · exact Ram.wfFrom_mono (by omega) hr
    · exact Ram.wfFrom_cons.mpr ⟨hk, hs, hv, ih hr⟩

/-- A store below 2^16 keeps the canonical form. -/
theorem Ram.wf_write {m : Ram W} (hm : m.wf = true) {addr : Nat} (ha : addr < ramSize) (w : Word W) :
    (m.write addr w).wf = true := by
  rw [Ram.write]
  split
  · exact Ram.wfFrom_erase hm addr
  · next hw => exact Ram.wfFrom_insert hm (Nat.zero_le _) ha hw

/-- The memory of `State.reset` is canonical. -/
theorem State.reset_ram_wf : State.reset.cpu.ram.wf = true := rfl

end Sys2Proof.Machine
end

