-- ==== Sys2Proof/Tests/Slice0.lean ====
section
/-! SUPPORT. The model's own tests, each about one step on a small state, their expected values taken from
95_test_vectors.md or worked out by hand from the rules; and, for each statement with hypotheses, concrete states that
meet them. -/

namespace Sys2Proof.Tests

open Machine Claims

/-! ### Helpers -/

/-- The spec's configuration with W = 64. -/
def spec64 : Config := { Config.spec with width := .w64 }

/-- A register from an optional value, none for an unwritten one. -/
def regOf (W : Width) : Option Nat → Reg W
  | some v => ⟨BitVec.ofNat _ v, true⟩
  | none => Reg.reset W

/-- A small state at PC = 0: the ROM's words, A, D, and the RAM words that are not 0, in rising order. -/
def small (cfg : Config) (words : List Nat) (a d : Option Nat) (ram : List (Nat × Nat)) : State where
  cfg := cfg
  rom := words.map (BitVec.ofNat 16)
  ram0 := []
  cpu :=
    { a := regOf _ a
      d := regOf _ d
      pc := 0
      ram := ram.map fun entry => (entry.1, BitVec.ofNat _ entry.2)
      out := []
      fault := none }

/-- A value as the tests write it, none for an unwritten register. -/
def regValue {W : Width} (r : Reg W) : Option Nat := if r.written then some r.value.toNat else none

/-- An output event as the tests write it: whether it is a character, and its value. -/
def eventOf {W : Width} (e : OutEvent W) : Bool × Nat := (eventKind e, (eventValue e).toNat)

/-- What a test looks at after a step: A, D, PC, the output, and the kind of a recorded fault. -/
structure View where
  a : Option Nat
  d : Option Nat
  pc : Nat
  out : List (Bool × Nat)
  fault : Option FaultKind
  deriving DecidableEq, Repr

/-- The view of a state. -/
def view (s : State) : View :=
  ⟨regValue s.cpu.a, regValue s.cpu.d, s.cpu.pc, s.cpu.out.map eventOf, s.cpu.fault.map (·.kind)⟩

/-- The next state's view, if there is one. -/
def stepView (s : State) : Option View :=
  match step s with
  | .next t => some (view t)
  | .fault _ => none
  | .refused _ => none

/-- A RAM word of the next state. -/
def stepRam (s : State) (addr : Nat) : Option Nat :=
  match step s with
  | .next t => some (t.cpu.ram.read addr).toNat
  | .fault _ => none
  | .refused _ => none

/-- A fault record as the tests write it. -/
structure Recorded where
  kind : FaultKind
  pc : Nat
  word : Nat
  a : Option Nat
  d : Option Nat
  deriving DecidableEq, Repr

/-- The fault record of the next state. -/
def stepRecord (s : State) : Option Recorded :=
  match step s with
  | .next t => t.cpu.fault.map fun r => ⟨r.kind, r.pc, r.word.toNat, regValue r.a, regValue r.d⟩
  | .fault _ => none
  | .refused _ => none

/-- Why a step stops, if it does. -/
def stopOf (s : State) : Option Fault :=
  match step s with
  | .next _ => none
  | .fault f => some f
  | .refused _ => none

/-- D after one step with W = 16. -/
def dAfter (word d a : Nat) (ram : List (Nat × Nat)) : Option Nat :=
  (stepView (small .spec [word] (some a) (some d) ram)).bind (·.d)

/-! ### Well-formedness (R75, R198; log 11) -/

theorem test_wf_refuses_a_canonical_code :
    (Instr.nonCanonical 0b0101010#7 .noPrint ⟨false, true, false⟩ .never).wf = false ∧
    (Instr.nonCanonical 0b1010101#7 .print ⟨true, false, false⟩ .jmp).wf = false := by
  decide

theorem test_wf_accepts_other_terms :
    (Instr.nonCanonical 0b0000001#7 .noPrint ⟨false, true, false⟩ .never).wf = true ∧
    (Instr.addr 0x7FFF#15).wf = true ∧ (Instr.reservedPrint 0b0101010#7 ⟨false, false, false⟩ .never).wf = true ∧
    (Instr.dOrM .printChar ⟨true, true, true⟩ .jle).wf = true := by
  decide

theorem test_wf_refuses_equal_print_codes : ¬ [0b00#2, 0b01#2, 0b10#2, 0b01#2].Nodup := by
  decide

theorem test_wf_counts_100_other_codes :
    ((List.range 128).filter fun n => !isCanonical (BitVec.ofNat 7 n)).length = 100 := by
  decide

theorem test_wf_refuses_ram_out_of_form :
    Ram.wf (W := .w16) [(4, 1), (3, 1)] = false ∧ Ram.wf (W := .w16) [(4, 0)] = false ∧
    Ram.wf (W := .w16) [(65536, 1)] = false ∧ Ram.wf (W := .w16) [(3, 1), (65535, 1)] = true := by
  decide

/-! ### Decoding: words from the tables of R71, R72 and R75–R78, and of 95_test_vectors.md section 3 -/

theorem test_decode_address :
    decodeTableWord 16 0b0000000000000010 = some (.addr 2) ∧
    decodeTableWord 16 0b0111111111111111 = some (.addr 0x7FFF) ∧
    decodeTableWord 16 0b0100000000000000 = some (.addr 16384) := by
  decide

theorem test_decode_constants :
    decodeTableWord 16 0b1000101010010000 = some (.zero .noPrint ⟨false, true, false⟩ .never) ∧
    decodeTableWord 16 0b1000111111010000 = some (.one .noPrint ⟨false, true, false⟩ .never) ∧
    decodeTableWord 16 0b1000111010010000 = some (.negOne .noPrint ⟨false, true, false⟩ .never) := by
  decide

theorem test_decode_on_d :
    decodeTableWord 16 0b1000001100010000 = some (.d .noPrint ⟨false, true, false⟩ .never) ∧
    decodeTableWord 16 0b1000001101010000 = some (.notD .noPrint ⟨false, true, false⟩ .never) ∧
    decodeTableWord 16 0b1000001111010000 = some (.negD .noPrint ⟨false, true, false⟩ .never) ∧
    decodeTableWord 16 0b1000011111010000 = some (.dPlusOne .noPrint ⟨false, true, false⟩ .never) ∧
    decodeTableWord 16 0b1000001110010000 = some (.dMinusOne .noPrint ⟨false, true, false⟩ .never) := by
  decide

theorem test_decode_on_a :
    decodeTableWord 16 0b1000110000010000 = some (.a .noPrint ⟨false, true, false⟩ .never) ∧
    decodeTableWord 16 0b1000110001010000 = some (.notA .noPrint ⟨false, true, false⟩ .never) ∧
    decodeTableWord 16 0b1000110011010000 = some (.negA .noPrint ⟨false, true, false⟩ .never) ∧
    decodeTableWord 16 0b1000110111010000 = some (.aPlusOne .noPrint ⟨false, true, false⟩ .never) ∧
    decodeTableWord 16 0b1000110010010000 = some (.aMinusOne .noPrint ⟨false, true, false⟩ .never) := by
  decide

theorem test_decode_on_m :
    decodeTableWord 16 0b1001110000010000 = some (.m .noPrint ⟨false, true, false⟩ .never) ∧
    decodeTableWord 16 0b1001110001010000 = some (.notM .noPrint ⟨false, true, false⟩ .never) ∧
    decodeTableWord 16 0b1001110011010000 = some (.negM .noPrint ⟨false, true, false⟩ .never) ∧
    decodeTableWord 16 0b1001110111010000 = some (.mPlusOne .noPrint ⟨false, true, false⟩ .never) ∧
    decodeTableWord 16 0b1001110010010000 = some (.mMinusOne .noPrint ⟨false, true, false⟩ .never) := by
  decide

theorem test_decode_on_d_and_a :
    decodeTableWord 16 0b1000000010010000 = some (.dPlusA .noPrint ⟨false, true, false⟩ .never) ∧
    decodeTableWord 16 0b1000010011010000 = some (.dMinusA .noPrint ⟨false, true, false⟩ .never) ∧
    decodeTableWord 16 0b1000000111010000 = some (.aMinusD .noPrint ⟨false, true, false⟩ .never) ∧
    decodeTableWord 16 0b1000000000010000 = some (.dAndA .noPrint ⟨false, true, false⟩ .never) ∧
    decodeTableWord 16 0b1000010101010000 = some (.dOrA .noPrint ⟨false, true, false⟩ .never) := by
  decide

theorem test_decode_on_d_and_m :
    decodeTableWord 16 0b1001000010010000 = some (.dPlusM .noPrint ⟨false, true, false⟩ .never) ∧
    decodeTableWord 16 0b1001010011010000 = some (.dMinusM .noPrint ⟨false, true, false⟩ .never) ∧
    decodeTableWord 16 0b1001000111010000 = some (.mMinusD .noPrint ⟨false, true, false⟩ .never) ∧
    decodeTableWord 16 0b1001000000010000 = some (.dAndM .noPrint ⟨false, true, false⟩ .never) ∧
    decodeTableWord 16 0b1001010101010000 = some (.dOrM .noPrint ⟨false, true, false⟩ .never) := by
  decide

/-- The dest, jump and print codes of R76, R77 and R78, on `D+1` and `0`. -/
theorem test_decode_fields :
    decodeTableWord 16 0b1000011111001000 = some (.dPlusOne .noPrint ⟨false, false, true⟩ .never) ∧
    decodeTableWord 16 0b1000011111100000 = some (.dPlusOne .noPrint ⟨true, false, false⟩ .never) ∧
    decodeTableWord 16 0b1000101010000001 = some (.zero .noPrint ⟨false, false, false⟩ .jgt) ∧
    decodeTableWord 16 0b1000101010000010 = some (.zero .noPrint ⟨false, false, false⟩ .jeq) ∧
    decodeTableWord 16 0b1000101010000011 = some (.zero .noPrint ⟨false, false, false⟩ .jge) ∧
    decodeTableWord 16 0b1000101010000100 = some (.zero .noPrint ⟨false, false, false⟩ .jlt) ∧
    decodeTableWord 16 0b1000101010000101 = some (.zero .noPrint ⟨false, false, false⟩ .jne) ∧
    decodeTableWord 16 0b1000101010000110 = some (.zero .noPrint ⟨false, false, false⟩ .jle) ∧
    decodeTableWord 16 0b1000101010000111 = some (.zero .noPrint ⟨false, false, false⟩ .jmp) ∧
    decodeTableWord 16 0b1010101010000000 = some (.zero .print ⟨false, false, false⟩ .never) ∧
    decodeTableWord 16 0b1100101010000000 = some (.zero .printChar ⟨false, false, false⟩ .never) := by
  decide

theorem test_decode_other :
    decodeTableWord 16 0b1000000001010000 = some (.nonCanonical 0b0000001 .noPrint ⟨false, true, false⟩ .never) ∧
    decodeTableWord 16 0b1110000000000000 = some (.reservedPrint 0b0000000 ⟨false, false, false⟩ .never) ∧
    decodeTableWord 16 0b1111111111111111 = some (.reservedPrint 0b1111111 ⟨true, true, true⟩ .jmp) := by
  decide

/-- Log 17: a word is 16 bits. -/
theorem test_decode_refuses_other_lengths :
    decodeTableWord 17 0 = none ∧ decodeTableWord 16 0x10000 = none ∧
    decodeBits .spec 17 0 = .error .tooManyBits ∧ decodeBits .spec 8 0x100 = .error .bitsOutOfRange := by
  refine ⟨by decide, by decide, rfl, rfl⟩

/-! ### One step of each instruction -/

/-- 95_test_vectors.md section 4, A-instruction vectors. -/
theorem test_stepAddr :
    stepView (small .spec [0x0001] (some 0xFFFF) none []) = some ⟨some 1, none, 1, [], none⟩ ∧
    stepView (small spec64 [0x6000] (some 0xFFFFFFFFFFFFFFFF) none []) = some ⟨some 0x6000, none, 1, [], none⟩ := by
  decide

/-- 95_test_vectors.md section 3, `0`. -/
theorem test_stepZero : dAfter 0x8A90 5 3 [(3, 9)] = some 0x0000 ∧
    dAfter 0x8A90 0x8000 0x7FFF [(0x7FFF, 1)] = some 0x0000 := by
  decide

/-- 95_test_vectors.md section 3, `1`. -/
theorem test_stepOne : dAfter 0x8FD0 5 3 [(3, 9)] = some 0x0001 ∧
    dAfter 0x8FD0 0x8000 0x7FFF [(0x7FFF, 1)] = some 0x0001 := by
  decide

/-- 95_test_vectors.md section 3, `-1`. -/
theorem test_stepNegOne : dAfter 0x8E90 5 3 [(3, 9)] = some 0xFFFF ∧
    dAfter 0x8E90 0x8000 0x7FFF [(0x7FFF, 1)] = some 0xFFFF := by
  decide

/-- 95_test_vectors.md section 3, `D`. -/
theorem test_stepD : dAfter 0x8310 5 3 [(3, 9)] = some 0x0005 ∧
    dAfter 0x8310 0x8000 0x7FFF [(0x7FFF, 1)] = some 0x8000 := by
  decide

/-- 95_test_vectors.md section 3, `!D`. -/
theorem test_stepNotD : dAfter 0x8350 5 3 [(3, 9)] = some 0xFFFA ∧
    dAfter 0x8350 0x8000 0x7FFF [(0x7FFF, 1)] = some 0x7FFF := by
  decide

/-- 95_test_vectors.md section 3, `-D`. -/
theorem test_stepNegD : dAfter 0x83D0 5 3 [(3, 9)] = some 0xFFFB ∧
    dAfter 0x83D0 0x8000 0x7FFF [(0x7FFF, 1)] = some 0x8000 := by
  decide

/-- 95_test_vectors.md section 3, `D+1`. -/
theorem test_stepDPlusOne : dAfter 0x87D0 5 3 [(3, 9)] = some 0x0006 ∧
    dAfter 0x87D0 0x8000 0x7FFF [(0x7FFF, 1)] = some 0x8001 := by
  decide

/-- 95_test_vectors.md section 3, `D-1`. -/
theorem test_stepDMinusOne : dAfter 0x8390 5 3 [(3, 9)] = some 0x0004 ∧
    dAfter 0x8390 0x8000 0x7FFF [(0x7FFF, 1)] = some 0x7FFF := by
  decide

/-- 95_test_vectors.md section 3, `A`. -/
theorem test_stepA : dAfter 0x8C10 5 3 [(3, 9)] = some 0x0003 ∧
    dAfter 0x8C10 0x8000 0x7FFF [(0x7FFF, 1)] = some 0x7FFF := by
  decide

/-- 95_test_vectors.md section 3, `!A`. -/
theorem test_stepNotA : dAfter 0x8C50 5 3 [(3, 9)] = some 0xFFFC ∧
    dAfter 0x8C50 0x8000 0x7FFF [(0x7FFF, 1)] = some 0x8000 := by
  decide

/-- 95_test_vectors.md section 3, `-A`. -/
theorem test_stepNegA : dAfter 0x8CD0 5 3 [(3, 9)] = some 0xFFFD ∧
    dAfter 0x8CD0 0x8000 0x7FFF [(0x7FFF, 1)] = some 0x8001 := by
  decide

/-- 95_test_vectors.md section 3, `A+1`. -/
theorem test_stepAPlusOne : dAfter 0x8DD0 5 3 [(3, 9)] = some 0x0004 ∧
    dAfter 0x8DD0 0x8000 0x7FFF [(0x7FFF, 1)] = some 0x8000 := by
  decide

/-- 95_test_vectors.md section 3, `A-1`. -/
theorem test_stepAMinusOne : dAfter 0x8C90 5 3 [(3, 9)] = some 0x0002 ∧
    dAfter 0x8C90 0x8000 0x7FFF [(0x7FFF, 1)] = some 0x7FFE := by
  decide

/-- 95_test_vectors.md section 3, `M`. -/
theorem test_stepM : dAfter 0x9C10 5 3 [(3, 9)] = some 0x0009 ∧
    dAfter 0x9C10 0x8000 0x7FFF [(0x7FFF, 1)] = some 0x0001 := by
  decide

/-- 95_test_vectors.md section 3, `!M`. -/
theorem test_stepNotM : dAfter 0x9C50 5 3 [(3, 9)] = some 0xFFF6 ∧
    dAfter 0x9C50 0x8000 0x7FFF [(0x7FFF, 1)] = some 0xFFFE := by
  decide

/-- 95_test_vectors.md section 3, `-M`. -/
theorem test_stepNegM : dAfter 0x9CD0 5 3 [(3, 9)] = some 0xFFF7 ∧
    dAfter 0x9CD0 0x8000 0x7FFF [(0x7FFF, 1)] = some 0xFFFF := by
  decide

/-- 95_test_vectors.md section 3, `M+1`. -/
theorem test_stepMPlusOne : dAfter 0x9DD0 5 3 [(3, 9)] = some 0x000A ∧
    dAfter 0x9DD0 0x8000 0x7FFF [(0x7FFF, 1)] = some 0x0002 := by
  decide

/-- 95_test_vectors.md section 3, `M-1`. -/
theorem test_stepMMinusOne : dAfter 0x9C90 5 3 [(3, 9)] = some 0x0008 ∧
    dAfter 0x9C90 0x8000 0x7FFF [(0x7FFF, 1)] = some 0x0000 := by
  decide

/-- 95_test_vectors.md section 3, `D+A`. -/
theorem test_stepDPlusA : dAfter 0x8090 5 3 [(3, 9)] = some 0x0008 ∧
    dAfter 0x8090 0x8000 0x7FFF [(0x7FFF, 1)] = some 0xFFFF := by
  decide

/-- 95_test_vectors.md section 3, `D-A`. -/
theorem test_stepDMinusA : dAfter 0x84D0 5 3 [(3, 9)] = some 0x0002 ∧
    dAfter 0x84D0 0x8000 0x7FFF [(0x7FFF, 1)] = some 0x0001 := by
  decide

/-- 95_test_vectors.md section 3, `A-D`. -/
theorem test_stepAMinusD : dAfter 0x81D0 5 3 [(3, 9)] = some 0xFFFE ∧
    dAfter 0x81D0 0x8000 0x7FFF [(0x7FFF, 1)] = some 0xFFFF := by
  decide

/-- 95_test_vectors.md section 3, `D&A`. -/
theorem test_stepDAndA : dAfter 0x8010 5 3 [(3, 9)] = some 0x0001 ∧
    dAfter 0x8010 0x8000 0x7FFF [(0x7FFF, 1)] = some 0x0000 := by
  decide

/-- 95_test_vectors.md section 3, `D|A`. -/
theorem test_stepDOrA : dAfter 0x8550 5 3 [(3, 9)] = some 0x0007 ∧
    dAfter 0x8550 0x8000 0x7FFF [(0x7FFF, 1)] = some 0xFFFF := by
  decide

/-- 95_test_vectors.md section 3, `D+M`. -/
theorem test_stepDPlusM : dAfter 0x9090 5 3 [(3, 9)] = some 0x000E ∧
    dAfter 0x9090 0x8000 0x7FFF [(0x7FFF, 1)] = some 0x8001 := by
  decide

/-- 95_test_vectors.md section 3, `D-M`. -/
theorem test_stepDMinusM : dAfter 0x94D0 5 3 [(3, 9)] = some 0xFFFC ∧
    dAfter 0x94D0 0x8000 0x7FFF [(0x7FFF, 1)] = some 0x7FFF := by
  decide

/-- 95_test_vectors.md section 3, `M-D`. -/
theorem test_stepMMinusD : dAfter 0x91D0 5 3 [(3, 9)] = some 0x0004 ∧
    dAfter 0x91D0 0x8000 0x7FFF [(0x7FFF, 1)] = some 0x8001 := by
  decide

/-- 95_test_vectors.md section 3, `D&M`. -/
theorem test_stepDAndM : dAfter 0x9010 5 3 [(3, 9)] = some 0x0001 ∧
    dAfter 0x9010 0x8000 0x7FFF [(0x7FFF, 1)] = some 0x0000 := by
  decide

/-- 95_test_vectors.md section 3, `D|M`. -/
theorem test_stepDOrM : dAfter 0x9550 5 3 [(3, 9)] = some 0x000D ∧
    dAfter 0x9550 0x8000 0x7FFF [(0x7FFF, 1)] = some 0x8001 := by
  decide

/-- The example of R198. -/
theorem test_stepNonCanonical : dAfter 0x8050 0x00FF 0x0F0F [] = some 0xFFF0 := by
  decide

/-- 95_test_vectors.md section 4, fault vectors. -/
theorem test_stepReservedPrint :
    stepRecord (small .spec [0xE000] none none []) = some ⟨.reservedPrintMode, 0, 0xE000, none, none⟩ := by
  decide

/-! ### Dest, jump and print (95_test_vectors.md section 4) -/

theorem test_dest_amd_stores_at_the_old_a :
    stepView (small .spec [0x87F8] (some 5) (some 9) []) = some ⟨some 10, some 10, 1, [], none⟩ ∧
    stepRam (small .spec [0x87F8] (some 5) (some 9) []) 5 = some 10 ∧
    stepRam (small .spec [0x87F8] (some 5) (some 9) []) 10 = some 0 := by
  decide

theorem test_dest_none_changes_pc_only :
    stepView (small .spec [0x87C0] (some 5) (some 9) []) = some ⟨some 5, some 9, 1, [], none⟩ ∧
    stepRam (small .spec [0x87C0] (some 5) (some 9) []) 5 = some 0 := by
  decide

/-- PC after `D;<jump>` with A = 0x40. -/
def pcAfter (word d : Nat) : Option Nat := (stepView (small .spec [word] (some 0x40) (some d) [])).map (·.pc)

theorem test_jumps_on_a_negative_d :
    [0x8300, 0x8301, 0x8302, 0x8303, 0x8304, 0x8305, 0x8306, 0x8307].map (fun w => pcAfter w 0x8000) =
      [1, 1, 1, 1, 64, 64, 64, 64].map some := by
  decide

theorem test_jumps_on_zero :
    [0x8300, 0x8301, 0x8302, 0x8303, 0x8304, 0x8305, 0x8306, 0x8307].map (fun w => pcAfter w 0) =
      [1, 1, 64, 64, 1, 1, 64, 64].map some := by
  decide

theorem test_jumps_on_a_positive_d :
    [0x8300, 0x8301, 0x8302, 0x8303, 0x8304, 0x8305, 0x8306, 0x8307].map (fun w => pcAfter w 0x7FFF) =
      [1, 64, 1, 64, 1, 64, 1, 64].map some := by
  decide

/-- `D=D-1;JEQ`, `D-1;JEQ`, `M=D-1;JLT` and `A=D;JGT`: the test is on D′ and the target is A′. -/
theorem test_jump_operand_and_target :
    pcAfter 0x8392 1 = some 64 ∧ pcAfter 0x8382 1 = some 1 ∧ pcAfter 0x838C 0 = some 1 ∧ pcAfter 0x8321 5 = some 5 := by
  decide

theorem test_print_decimal_and_character :
    stepView (small .spec [0xA300] none (some 5) []) = some ⟨none, some 5, 1, [(false, 5)], none⟩ ∧
    stepView (small .spec [0xC300] none (some 0x41) []) = some ⟨none, some 0x41, 1, [(true, 0x41)], none⟩ ∧
    stepView (small .spec [0xAA87] (some 0x40) none []) = some ⟨some 0x40, none, 64, [(false, 0)], none⟩ := by
  decide

/-- `PRINT M=M+1` with RAM[3] = 0xFFFF: the read comes before the write. -/
theorem test_read_before_write :
    stepView (small .spec [0xBDC8] (some 3) none [(3, 0xFFFF)]) = some ⟨some 3, none, 1, [(false, 0)], none⟩ ∧
    stepRam (small .spec [0xBDC8] (some 3) none [(3, 0xFFFF)]) 3 = some 0 := by
  decide

/-! ### Faults and the ends of a run (95_test_vectors.md section 4) -/

theorem test_unwritten_registers_fault :
    [0x87D0, 0x8A82, 0x8A87, 0x8FC8, 0x8C10].map (fun w => stepRecord (small .spec [w] none none [])) =
      [0x87D0, 0x8A82, 0x8A87, 0x8FC8, 0x8C10].map fun w => some ⟨.uninitRegisterRead, 0, w, none, none⟩ := by
  decide

theorem test_unread_registers_do_not_fault :
    stepView (small .spec [0x8A80] none none []) = some ⟨none, none, 1, [], none⟩ := by
  decide

/-- W = 64, `PRINT M=1` with A = 0x10000: no event, no store, and the machine then stops. -/
theorem test_range_fault_commits_nothing :
    stepView (small spec64 [0xAFC8] (some 0x10000) (some 7) [(3, 9)]) =
      some ⟨some 0x10000, some 7, 0, [], some .memAddrOutOfRange⟩ ∧
    stepRam (small spec64 [0xAFC8] (some 0x10000) (some 7) [(3, 9)]) 3 = some 9 := by
  decide

theorem test_wide_arithmetic :
    (stepView (small spec64 [0x87D0] none (some 0x7FFFFFFFFFFFFFFF) [])).bind (·.d) = some 0x8000000000000000 ∧
    (stepView (small spec64 [0x8304] (some 0x40) (some 0x8000000000000000) [])).map (·.pc) = some 64 := by
  decide

theorem test_ends_of_a_run :
    stopOf (small .spec [] none none []) = some .halted ∧
    stopOf ((small .spec [0x0007] none none []).raise .reservedPrintMode 0xE000) = some .faulted ∧
    runEnd (small .spec [] none none []) = some .halted ∧
    runEnd (small .spec [0x0007] none none []) = none := by
  decide

/-! ### The alternatives of R7, worked out from R144, R148, R199, R211 and R212 -/

theorem test_alternative_configurations :
    (stepRecord (small { Config.spec with compDecode := .canonicalOnly } [0xE050] none none [])).map (·.kind) =
      some .nonCanonicalComp ∧
    stepRam (small { Config.spec with mAddrSource := .postA } [0x87E8] (some 5) (some 9) []) 10 = some 10 ∧
    (stepView (small { Config.spec with jumpOperand := .aluOut } [0x8382] (some 0x40) (some 1) [])).map (·.pc) =
      some 64 ∧
    (stepView (small { Config.spec with jumpTargetSource := .preA } [0x8321] (some 0x40) (some 5) [])).map (·.pc) =
      some 64 ∧
    (stepView (small { Config.spec with printValue := .postWriteD } [0xA7C0] none (some 9) [])).map (·.out) =
      some [(false, 9)] := by
  decide

/-- The Hack platform's words, with print code 11 for no print (R78). -/
theorem test_other_print_codes :
    decode ⟨0b11, 0b01, 0b10, 0b00, by decide⟩ 0xEC10 = .a .noPrint ⟨false, true, false⟩ .never ∧
    decode ⟨0b11, 0b01, 0b10, 0b00, by decide⟩ 0x8C10 = .reservedPrint 0b0110000 ⟨false, true, false⟩ .never := by
  decide

/-! ### Reset and the host's interface -/

/-- Log 1: from reset `D=D+1` runs and gives 1. -/
theorem test_first_instruction_after_reset :
    stepView (State.reset.withFetchWord 16 0x87D0) = some ⟨none, some 1, 1, [], none⟩ ∧
    stopOf State.reset = some .halted := by
  decide

/-- The ports while `PRINT M=D+M` executes (R34). -/
theorem test_ports :
    let p := portsOf (small .spec [0xB088] (some 3) (some 5) [(3, 9)])
    p.romAddr = 0 ∧ p.romLen = 1 ∧ p.romData = some 0xB088 ∧ p.ramAddr = some 3 ∧ p.ramRe = true ∧ p.ramWe = true ∧
      p.outValid = true ∧ p.outKind = some false ∧ p.halted = false ∧ p.fault = false := by
  decide

theorem test_ports_data :
    ((portsOf (small .spec [0xB088] (some 3) (some 5) [(3, 9)])).ramRdata).map (·.toNat) = some 9 ∧
    ((portsOf (small .spec [0xB088] (some 3) (some 5) [(3, 9)])).ramWdata).map (·.toNat) = some 14 ∧
    ((portsOf (small .spec [0xB088] (some 3) (some 5) [(3, 9)])).outData).map (·.toNat) = some 14 := by
  decide

/-- R34 puts no condition on `ram_wdata`: `0;JMP` with A unwritten faults, and the ALU result is 0. Log 15: an A that
cannot be read gives no address, and the held one does under `uninitRead = value`. -/
theorem test_ports_of_a_faulting_instruction :
    ((portsOf (small .spec [0x8A87] none none [])).ramWdata).map (·.toNat) = some 0 ∧
    (portsOf (small .spec [0x8A87] none none [])).ramAddr = none ∧
    (portsOf (small .spec [0x8C10] none none [])).ramWdata = none ∧
    (portsOf (small .reset [0x8A87] none none [])).ramAddr = some 0 := by
  decide

/-! ### The assembler (R82–R91) -/

/-- The words of a program text under the spec's print codes, none where assembly stops. -/
def words? (text : String) : Option (List Nat) :=
  match assemble .spec text.toList with
  | .ok ws => some (ws.map (·.toNat))
  | .error _ => none

/-- 95_test_vectors.md, program P1. -/
theorem test_assemble_P1 :
    words? "@2\nD=A // two\n\n  @3\nD=D+A\n@0\nM=D" = some [0x0002, 0x8C10, 0x0003, 0x8090, 0x0000, 0x8308] := by
  decide

/-- A forward and a backward label, two variables, and a label that hides a predefined name. -/
theorem test_assemble_symbols :
    words? "(TOP)\n@END\n@TOP\n@x\n@y\n@x\n@R1\n(END)" = some [6, 0, 16, 17, 16, 1] ∧
    words? "(R1)\n@R1\n@SCREEN\n@KBD" = some [0, 16384, 24576] := by
  decide

theorem test_assemble_fields :
    words? "PRINT MD=D+M\nPRINT_CHAR D\nD-1;JEQ\nAMD=D+1" = some [0xB098, 0xC300, 0x8382, 0x87F8] := by
  decide

theorem test_assemble_errors :
    assembleInstrs "@32768".toList = .error (.addressRange 1) ∧
    assembleInstrs "@32767".toList = .ok [.addr 0x7FFF] ∧
    assembleInstrs "@1\nD=A+D".toList = .error (.unresolvedSymbol 2) := by
  refine ⟨rfl, rfl, rfl⟩

theorem test_render :
    renderOutput (fun v => toString v.toNat) (fun _ => "x") [OutEvent.dec (W := .w16) 0, .dec 1, .chr 65] = "01x" := by
  decide

/-! ### Witnesses: states and operands that meet the hypotheses of the statements -/

/-- The spec's configuration has the spec's sources, at both widths, and so has the configuration after reset. -/
theorem witness_SpecSources : SpecSources Config.spec ∧ SpecSources spec64 ∧ SpecSources Config.reset :=
  ⟨⟨rfl, rfl, rfl, rfl, rfl⟩, ⟨rfl, rfl, rfl, rfl, rfl⟩, ⟨rfl, rfl, rfl, rfl, rfl⟩⟩

/-- Both registers written, A the last RAM address. -/
def atTop : State := small spec64 [0x8A80] (some 65535) (some 1) [(65535, 9)]

/-- Both registers written, A the first value that is no RAM address. -/
def aboveTop : State := small spec64 [0x8A80] (some 65536) (some 1) []

/-- Neither register written, and a read of one faults. -/
def unwritten : State := small spec64 [0x8A80] none none []

/-- Only D written. -/
def onlyD : State := small spec64 [0x8A80] none (some 1) []

/-- Only A written. -/
def onlyA : State := small spec64 [0x8A80] (some 65535) none []

theorem witness_ResetMeetsTheInvariant : Ram.wf (W := .w64) [(0, 1), (65535, 2)] = true := by
  decide

theorem witness_StepKeepsTheInvariant : Inv atTop ∧ ∃ t, step atTop = .next t :=
  ⟨⟨by decide, by decide, by decide, by decide, fun _ h => nomatch h⟩, _, rfl⟩

theorem witness_StepKeepsTheInvariant_fault :
    let s := small .spec [0xE000] none none []
    Inv s ∧ ∃ t, step s = .next t ∧ t.isFaulted = true :=
  ⟨⟨by decide, by decide, by decide, by decide, fun _ h => nomatch h⟩, _, rfl, rfl⟩

theorem witness_RunsKeepProgramAndAppendOutput :
    (∃ t, Reaches atTop t ∧ t ≠ atTop) ∧ (atTop.raise .reservedPrintMode 0xE000).isFaulted = true :=
  ⟨⟨_, .tail .refl rfl, by decide⟩, rfl⟩

theorem witness_StepRunsTheDecodedInstruction :
    atTop.cpu.fault = none ∧ atTop.rom[atTop.cpu.pc]? = some 0x8A80#16 := by
  decide

theorem witness_StepStopsExactlyAtTheEnds :
    (atTop.cpu.fault = none ∧ atTop.cpu.pc < atTop.rom.length) ∧
    (let s := small .spec [] none none []; s.cpu.fault = none ∧ s.rom.length ≤ s.cpu.pc) ∧
    (atTop.raise .reservedPrintMode 0xE000).cpu.fault ≠ none := by
  decide

theorem witness_DecodeInvertsEncode :
    (Instr.nonCanonical 0b1111111#7 .printChar ⟨true, true, true⟩ .jmp).wf = true := by
  decide

theorem witness_ConstantOperations :
    FieldsOk atTop ⟨true, true, true⟩ .jmp (0#64) ∧ FieldsOk unwritten ⟨false, false, false⟩ .never (0#64) ∧
    FieldsOk onlyA ⟨false, false, true⟩ .jmp (0#64) :=
  ⟨⟨by decide, by decide, by decide⟩, ⟨by decide, by decide, by decide⟩, ⟨by decide, by decide, by decide⟩⟩

/-- Each clause of `FieldFaults`, in its order. -/
theorem witness_FieldFaults :
    (unwritten.cfg.uninitRead = .fault ∧ ¬ Written unwritten.cpu.a) ∧
    (Written aboveTop.cpu.a ∧ 65536 ≤ aboveTop.cpu.a.value.toNat) ∧
    (Written onlyA.cpu.a ∧ onlyA.cpu.a.value.toNat < 65536 ∧ ¬ Written onlyA.cpu.d) ∧
    (Written onlyD.cpu.d ∧ taken onlyD ⟨false, false, false⟩ .jgt (0#64) = true ∧ ¬ Written onlyD.cpu.a) := by
  decide

theorem witness_DOperations : Written onlyD.cpu.d ∧ ¬ Written onlyA.cpu.d ∧ onlyA.cfg.uninitRead = .fault := by
  decide

theorem witness_AOperations : Written onlyA.cpu.a ∧ ¬ Written onlyD.cpu.a ∧ onlyD.cfg.uninitRead = .fault := by
  decide

theorem witness_MOperations :
    (Written atTop.cpu.a ∧ atTop.cpu.a.value.toNat = 65535) ∧ ¬ Written onlyD.cpu.a ∧
    (Written aboveTop.cpu.a ∧ aboveTop.cpu.a.value.toNat = 65536) := by
  decide

theorem witness_DAndAOperations :
    (Written atTop.cpu.d ∧ Written atTop.cpu.a) ∧ ¬ (Written onlyD.cpu.d ∧ Written onlyD.cpu.a) ∧
    ¬ (Written onlyA.cpu.d ∧ Written onlyA.cpu.a) ∧ onlyA.cfg.uninitRead = .fault := by
  decide

theorem witness_DAndMOperations :
    (Written atTop.cpu.d ∧ Written atTop.cpu.a ∧ atTop.cpu.a.value.toNat = 65535) ∧
    ¬ (Written onlyA.cpu.d ∧ Written onlyA.cpu.a) ∧
    (Written aboveTop.cpu.d ∧ Written aboveTop.cpu.a ∧ aboveTop.cpu.a.value.toNat = 65536) := by
  decide

/-- Codes with a = 1 and with a = 0; the second reads M although zy = 1. -/
theorem witness_NonCanonicalOperations :
    isCanonical 0b0000001#7 = false ∧ XOk atTop 0b0000001#7 ∧ YOk atTop 0b0000001#7 ∧
    isCanonical 0b1101000#7 = false ∧ XOk onlyA 0b1101000#7 ∧
    FieldsOk atTop ⟨true, true, true⟩ .jeq (outOf atTop 0b0000001#7) ∧
    ¬ XOk onlyA 0b0000001#7 ∧ (¬ Written onlyD.cpu.a) ∧ XOk aboveTop 0b1101000#7 ∧ Written aboveTop.cpu.a :=
  ⟨by decide, fun _ => by decide, fun _ _ => by decide, by decide, fun h => absurd h (by decide),
    ⟨by decide, by decide, by decide⟩, fun h => absurd (h rfl) (by decide), by decide,
    fun h => absurd h (by decide), by decide⟩

/-- The state `atTop` under another configuration of the same width. -/
def atTopWith (cfg : Config) : State := small cfg [0x8A80] (some 65535) (some 1) []

theorem witness_NonCanonicalFaultsUnderCanonicalOnly :
    (atTopWith { Config.spec with compDecode := .canonicalOnly }).cfg.compDecode = .canonicalOnly ∧
    isCanonical 0b0000001#7 = false ∧ isCanonical 0b0000000#7 = true ∧ (atTopWith .spec).cpu.fault = none := by
  decide

theorem witness_ReservedPrintModeFaults :
    atTop.cfg.compDecode = .bitRouted ∧ isCanonical 0b0000000#7 = true := by
  decide

/-- Each clause of the order of checks: x, the M address, its range, y, the jump operand, the jump target. -/
theorem witness_FaultChecksInOrder :
    ¬ XOk onlyA 0b0000000#7 ∧
    (XOk onlyD 0b1000000#7 ∧ ¬ Written onlyD.cpu.a) ∧
    (XOk aboveTop 0b1000000#7 ∧ Written aboveTop.cpu.a ∧ 65536 ≤ aboveTop.cpu.a.value.toNat) ∧
    (XOk onlyD 0b0000000#7 ∧ MOk onlyD 0b0000000#7 ⟨true, true, false⟩ ∧ ¬ YOk onlyD 0b0000000#7) ∧
    (XOk onlyA 0b0110000#7 ∧ MOk onlyA 0b0110000#7 ⟨true, false, true⟩ ∧ YOk onlyA 0b0110000#7 ∧
      ¬ Written onlyA.cpu.d) ∧
    (XOk onlyD 0b0001100#7 ∧ MOk onlyD 0b0001100#7 ⟨false, false, false⟩ ∧ YOk onlyD 0b0001100#7 ∧
      taken onlyD ⟨false, false, false⟩ .jgt (outOf onlyD 0b0001100#7) = true ∧ ¬ Written onlyD.cpu.a) :=
  ⟨fun h => absurd (h rfl) (by decide), ⟨fun _ => by decide, by decide⟩, ⟨fun _ => by decide, by decide, by decide⟩,
    ⟨fun _ => by decide, fun h => absurd h (by decide), fun h => absurd (h rfl rfl) (by decide)⟩,
    ⟨fun h => absurd h (by decide), fun _ => by decide, fun _ _ => by decide, by decide⟩,
    ⟨fun _ => by decide, fun h => absurd h (by decide), fun _ h => absurd h (by decide), by decide, by decide⟩⟩

theorem witness_FaultsArePrecise :
    unwritten.cpu.fault = none ∧ ∃ t, exec (.d .print ⟨true, true, true⟩ .jmp) unwritten = .next t ∧
      t.isFaulted = true :=
  ⟨rfl, _, rfl, rfl⟩

theorem witness_FaultRecordHoldsTheFetchedWord :
    ∃ t, step (small .spec [0xE000] none none []) = .next t ∧ t.isFaulted = true :=
  ⟨_, rfl, rfl⟩

/-- Each kind of fault, raised. -/
theorem witness_FaultKindsNeedTheirConditions :
    exec (.m .noPrint ⟨false, true, false⟩ .never) aboveTop = .next (faultedWith aboveTop .memAddrOutOfRange 0x9C10) ∧
    exec (.reservedPrint 0 ⟨false, false, false⟩ .never) atTop =
      .next (faultedWith atTop .reservedPrintMode 0xE000) ∧
    exec (.d .noPrint ⟨false, true, false⟩ .never) unwritten =
      .next (faultedWith unwritten .uninitRegisterRead 0x8310) ∧
    (let s := small { Config.spec with compDecode := .canonicalOnly } [] none none [];
      exec (.nonCanonical 1 .noPrint ⟨false, true, false⟩ .never) s =
        .next (faultedWith s .nonCanonicalComp 0x8050)) :=
  ⟨rfl, rfl, rfl, rfl⟩

theorem witness_NoRangeFaultAtSixteenBits :
    let s := small { Config.spec with mAddrSource := .postA } [] (some 65535) none []
    s.cpu.fault = none ∧ s.cfg.width = .w16 := by
  decide

theorem witness_HeldValuesCountAsWritten :
    State.reset.cfg.uninitRead = .value ∧ State.reset.cpu.fault = none ∧ ¬ Written State.reset.cpu.d := by
  decide

/-- D′ at 1, 0, −1 and the least value; then an unwritten jump operand, and an unwritten jump target. -/
theorem witness_JumpCodesCompareDWithZero :
    ([1, 0, 0xFFFF, 0x8000].map fun d =>
      (postD (small .spec [] (some 0x40) (some d) []) ⟨false, false, false⟩ 0).toInt) = [1, 0, -1, -32768] ∧
    (XOk atTop 0b0001100#7 ∧ MOk atTop 0b0001100#7 ⟨false, false, true⟩ ∧ YOk atTop 0b0001100#7) ∧
    (XOk onlyA 0b0110000#7 ∧ MOk onlyA 0b0110000#7 ⟨true, false, true⟩ ∧ YOk onlyA 0b0110000#7 ∧
      ¬ Written onlyA.cpu.d ∧ onlyA.cfg.uninitRead = .fault) ∧
    (XOk onlyD 0b0001100#7 ∧ MOk onlyD 0b0001100#7 ⟨false, false, false⟩ ∧ YOk onlyD 0b0001100#7 ∧
      (postD onlyD ⟨false, false, false⟩ 0).toInt = 1 ∧ ¬ Written onlyD.cpu.a) :=
  ⟨by decide, ⟨fun _ => by decide, fun _ => by decide, fun _ h => absurd h (by decide)⟩,
    ⟨fun h => absurd h (by decide), fun _ => by decide, fun _ _ => by decide, by decide, by decide⟩,
    ⟨fun _ => by decide, fun h => absurd h (by decide), fun _ h => absurd h (by decide), by decide, by decide⟩⟩

theorem witness_JumpTestsTheAluResult :
    let s := atTopWith { Config.spec with jumpOperand := .aluOut }
    s.cfg.jumpOperand = .aluOut ∧ s.cfg.mAddrSource = .preA ∧ XOk s 0b0001110#7 ∧
      MOk s 0b0001110#7 ⟨false, false, true⟩ ∧ YOk s 0b0001110#7 ∧ Written s.cpu.a :=
  ⟨rfl, rfl, fun _ => by decide, fun _ => by decide, fun _ h => absurd h (by decide), by decide⟩

theorem witness_JumpGoesToTheOldA :
    let cfg := { Config.spec with jumpTargetSource := .preA }
    let s := atTopWith cfg
    let u := small cfg [] none (some 1) []
    (s.cfg.jumpTargetSource = .preA ∧ taken s ⟨true, false, false⟩ .jgt (outOf s 0b0001100#7) = true ∧
      Written s.cpu.a) ∧
    (u.cfg.uninitRead = .fault ∧ taken u ⟨true, false, false⟩ .jgt (outOf u 0b0001100#7) = true ∧
      ¬ Written u.cpu.a ∧ Written u.cpu.d) := by
  decide

/-- The value stored and written to A is the last RAM address, and the first value that is none. -/
theorem witness_StoreGoesToTheNewA :
    let cfg := { spec64 with mAddrSource := .postA }
    let s := small cfg [] none (some 65535) []
    let u := small cfg [] none (some 65536) []
    s.cfg.mAddrSource = .postA ∧ Written s.cpu.d ∧ (outOf s 0b0001100#7).toNat = 65535 ∧
      Written u.cpu.d ∧ (outOf u 0b0001100#7).toNat = 65536 := by
  decide

theorem witness_PrintEmitsThePostWriteD :
    let cfg := { Config.spec with printValue := .postWriteD }
    let s := small cfg [] none (some 9) []
    let u := small cfg [] none none []
    s.cfg.printValue = .postWriteD ∧ Written s.cpu.d ∧ u.cfg.uninitRead = .fault ∧ ¬ Written u.cpu.d ∧
      XOk u 0b0101010#7 ∧ MOk u 0b0101010#7 ⟨false, false, false⟩ ∧ YOk u 0b0101010#7 ∧
      FieldsOk u ⟨false, false, false⟩ .never (outOf u 0b0101010#7) :=
  ⟨rfl, rfl, rfl, by decide, fun h => absurd h (by decide), fun h => absurd h (by decide),
    fun _ h => absurd h (by decide), ⟨by decide, by decide, by decide⟩⟩

theorem witness_frames :
    (∃ t, exec (decodeComp 0b0000010#7 .print ⟨true, true, false⟩ .jle) atTop = .next t ∧ t.isFaulted = false) ∧
    (∃ t, exec (decodeComp 0b0000010#7 .print ⟨true, true, true⟩ .jle) atTop = .next t ∧ t.isFaulted = false) ∧
    (∃ t, exec (decodeComp 0b0000010#7 .print ⟨true, true, true⟩ .jle) aboveTop = .next t ∧ t.isFaulted = true) :=
  ⟨⟨_, rfl, rfl⟩, ⟨_, rfl, rfl⟩, ⟨_, rfl, rfl⟩⟩

theorem witness_WrittenRegistersStayWritten :
    ∃ t, exec (.one .noPrint ⟨true, false, false⟩ .never) onlyD = .next t ∧ onlyD.cpu.d.written = true ∧
      t.cpu.a.written = true :=
  ⟨_, rfl, rfl, rfl⟩

theorem witness_RomIsNeverWritten : ∃ t, exec (.one .noPrint ⟨true, false, true⟩ .never) atTop = .next t :=
  ⟨_, rfl⟩

theorem witness_UnreadDDoesNotMatter :
    ∃ c : Cpu onlyA.cfg.width, (0b1110000#7 : CompCode)[5] = true ∧ onlyA.cpu.fault = none ∧
      exec (decodeComp 0b1110000#7 .print ⟨true, false, true⟩ .jmp) onlyA = .next { onlyA with cpu := c } ∧
      c.fault = none :=
  ⟨_, rfl, rfl, rfl, rfl⟩

theorem witness_ReadGivesTheLastStore :
    Ram.wf (W := .w16) [(16384, 1), (24576, 2)] = true ∧ 65535 < ramSize ∧ ramSize = 65536 := by
  decide

theorem witness_EqualMemoriesAreEqualData :
    Ram.wf (W := .w16) [(0, 1), (65535, 2)] = true ∧
    Ram.write (Ram.write ([] : Ram .w16) 65535 2) 0 1 = [(0, 1), (65535, 2)] ∧
    Ram.write (Ram.write ([] : Ram .w16) 0 1) 65535 2 = [(0, 1), (65535, 2)] := by
  decide

theorem witness_PortsDescribeTheStore :
    (let s := small .spec [0x8308] (some 65535) (some 1) [];
      s.cfg.mAddrSource = .preA ∧ (portsOf s).ramWe = true ∧ ∃ t, step s = .next t) ∧
    (portsOf atTop).ramWe = false ∧ ∃ t, step atTop = .next t :=
  ⟨⟨rfl, rfl, _, rfl⟩, rfl, _, rfl⟩

/-- A C-instruction that stores nothing and faults after the ALU; and A at the last RAM address. -/
theorem witness_PortsShowTheAluResult :
    (let s := small .spec [0x8A87] none none [];
      s.cpu.fault = none ∧ s.rom[s.cpu.pc]? = some 0x8A87#16 ∧ isCompute 0x8A87#16 = true ∧
        XOk s (fieldComp 0x8A87#16) ∧ (fieldComp 0x8A87#16)[6] = false ∧ YOk s (fieldComp 0x8A87#16)) ∧
    Written atTop.cpu.a ∧ atTop.cpu.a.value.toNat = 65535 :=
  ⟨⟨rfl, rfl, rfl, fun h => absurd h (by decide), rfl, fun _ h => absurd h (by decide)⟩, by decide, by decide⟩

theorem witness_PortsDescribeTheOutput :
    (let s := small .spec [0xA300] none (some 1) [];
      (portsOf s).outValid = true ∧ ∃ t, step s = .next t) ∧
    (portsOf atTop).outValid = false :=
  ⟨⟨rfl, _, rfl⟩, rfl⟩

theorem witness_ClockEdgeResetsOrSteps :
    (∃ t, step atTop = .next t) ∧ (portsOf (small .spec [] none none [])).halted = true ∧
    (portsOf (atTop.raise .reservedPrintMode 0xE000)).fault = true :=
  ⟨⟨_, rfl⟩, rfl, rfl⟩

theorem witness_assembler_statements :
    words? "@1\nD=A" = some [0x0001, 0x8C10] ∧ linesOf "@1\n(X)\nD=A".toList =
      [(1, .address "1".toList), (2, .label "X".toList), (3, .compute "D=A".toList)] := by
  decide

theorem witness_LabelsNameTheNextInstruction :
    ∀ line ∈ [(3, Line.label "B".toList), (4, Line.compute "D=A".toList)], line.2 ≠ .label "A".toList := by
  decide

/-- One symbol for each place it can be found in, each absent from the places before. -/
theorem witness_SymbolsResolveInOrder :
    let labels : SymbolTable := [("L".toList, 7)]
    let vars : Variables := ⟨[("v".toList, 16)], 17⟩
    literal? "32767".toList = some 32767 ∧
    (literal? "L".toList = none ∧ labels.lookup "L".toList = some 7) ∧
    (literal? "KBD".toList = none ∧ labels.lookup "KBD".toList = none ∧
      predefined.lookup "KBD".toList = some 24576) ∧
    (literal? "v".toList = none ∧ labels.lookup "v".toList = none ∧ predefined.lookup "v".toList = none ∧
      vars.table.lookup "v".toList = some 16) := by
  decide

/-- Variables with two names, a third name that is new to them, and the addresses before SCREEN and after it. -/
theorem witness_VariablesCountFromSixteen :
    (let vars : Variables := ⟨[("y".toList, 17), ("x".toList, 16)], 18⟩;
      Allocated vars ∧ literal? "z".toList = none ∧ predefined.lookup "z".toList = none ∧
        vars.table.lookup "z".toList = none) ∧
    (resolve [] ⟨[], 16384⟩ "z".toList).1 = 16384 :=
  ⟨⟨⟨rfl, by decide, by decide, by decide⟩, by decide, by decide, by decide⟩, by decide⟩

theorem witness_AddressesAboveFifteenBitsAreErrors :
    (resolve [] .start "32767".toList).1 = 32767 ∧ (resolve [] .start "32768".toList).1 = 32768 := by
  decide

end Sys2Proof.Tests
end

section
/-! What an executed instruction and a step can do to the state, said once; and the statements of 10_state.md. -/

namespace Sys2Proof.Machine

open Claims

/-! ### What `exec` can do -/

/-- Every instruction, well formed or not, runs `@imm`, the reserved print mode, or the shared datapath (R141); its word is
the one the datapath records. -/
theorem exec_cases (i : Instr) (s : State) :
    (∃ imm, i = .addr imm) ∨ (∃ comp dest jump, i = .reservedPrint comp dest jump) ∨
      ∃ code p dest jump, exec i s = compute code p dest jump s ∧
        encode s.cfg.printCode i = computeWord (printModeCode s.cfg.printCode p) code dest jump := by
  cases hwf : i.wf with
  | true =>
    obtain h | h | ⟨code, p, dest, jump, rfl⟩ := wf_cases i hwf
    · exact .inl h
    · exact .inr (.inl h)
    · exact .inr (.inr ⟨code, p, dest, jump, exec_decodeComp .., encode_decodeComp ..⟩)
  | false =>
    unfold Instr.wf at hwf
    split at hwf
    · exact .inr (.inr ⟨_, _, _, _, rfl, rfl⟩)
    · cases hwf

/-- The next states of an instruction: A loaded and PC advanced, a fault recorded with the instruction's own word, or an
effect committed. -/
theorem exec_next {i : Instr} {s t : State} (h : exec i s = .next t) :
    (∃ imm, i = .addr imm ∧
      t = { s with cpu := { s.cpu with a := .ofValue (immediateWord s.cfg.width imm), pc := s.cpu.pc + 1 } }) ∨
    (∃ kind, t = s.raise kind (encode s.cfg.printCode i)) ∨
    (∃ code p dest jump e, evaluate s.cfg code p dest jump s.cpu = .ok e ∧
      t = { s with cpu := s.cpu.commit dest e }) := by
  obtain ⟨imm, rfl⟩ | ⟨comp, dest, jump, rfl⟩ | ⟨code, p, dest, jump, hx, henc⟩ := exec_cases i s
  · exact .inl ⟨imm, rfl, (Host.Outcome.next.inj h).symm⟩
  · exact .inr (.inl ⟨_, (Host.Outcome.next.inj h).symm⟩)
  · rw [hx] at h
    obtain ⟨e, he, hc⟩ | ⟨kind, -, hc⟩ := compute_cases code p dest jump s <;> rw [hc] at h
    · exact .inr (.inr ⟨code, p, dest, jump, e, he, (Host.Outcome.next.inj h).symm⟩)
    · exact .inr (.inl ⟨kind, henc ▸ (Host.Outcome.next.inj h).symm⟩)

/-! ### Runs -/

/-- An instruction changes nothing but the CPU, and only adds to the output stream (R27, R33, R60). -/
theorem exec_next_appends {i : Instr} {s t : State} (h : exec i s = .next t) :
    ∃ c : Cpu s.cfg.width, t = { s with cpu := c } ∧ ∃ evs, c.out = s.cpu.out ++ evs := by
  obtain ⟨imm, -, rfl⟩ | ⟨kind, rfl⟩ | ⟨code, p, dest, jump, e, -, rfl⟩ := exec_next h
  · exact ⟨_, rfl, [], (List.append_nil _).symm⟩
  · exact ⟨_, rfl, [], (List.append_nil _).symm⟩
  · exact ⟨_, rfl, e.event.toList, rfl⟩

/-- Settles O4, by induction on the run: each step appends to the output, and a faulted machine has no first step. -/
theorem runsKeepProgramAndAppendOutput : Obligations.RunsKeepProgramAndAppendOutput := by
  intro s t hrun
  induction hrun with
  | refl => exact ⟨s.cpu, rfl, ⟨[], (List.append_nil _).symm⟩, fun _ => rfl⟩
  | tail _ hstep ih =>
    obtain ⟨c, rfl, ⟨evs, hout⟩, hlast⟩ := ih
    obtain ⟨w, hrunning, -, hexec⟩ := step_next hstep
    obtain ⟨c', rfl, evs', hout'⟩ := exec_next_appends hexec
    refine ⟨c', rfl, ⟨evs ++ evs', ?_⟩, fun hf => ?_⟩
    · rw [hout', hout, List.append_assoc]
    · rw [hlast hf, hf] at hrunning
      cases hrunning

/-! ### Written registers -/

theorem Reg.update_written {W : Width} {r : Reg W} (b : Bool) (v : Word W) (h : r.written = true) :
    (r.update b v).written = true := by
  cases b with
  | true => rfl
  | false => exact h

/-- Settles O37: no next state of an instruction takes a mark away. -/
theorem writtenRegistersStayWritten : Obligations.WrittenRegistersStayWritten := by
  intro i s t h
  obtain ⟨imm, -, rfl⟩ | ⟨kind, rfl⟩ | ⟨code, p, dest, jump, e, -, rfl⟩ := exec_next h
  · exact ⟨fun _ => rfl, id⟩
  · exact ⟨id, id⟩
  · exact ⟨Reg.update_written _ _, Reg.update_written _ _⟩

/-! ### The ports of a step -/

theorem currentCompute_eq {s : State} {w : InstrWord} (hf : s.isFaulted = false) (hw : s.fetch = some w) :
    currentCompute s = if isCompute w then some w else none := by
  simp [currentCompute, hf, hw]

/-- The next states of a step, with what the machine's ports are computed from: a word with opcode bit 0 shows no
C-instruction, a faulting one no effect, and any other the effect that the step commits. -/
theorem step_next_ports {s t : State} (h : step s = .next t) :
    (currentCompute s = none ∧ ∃ imm,
      t = { s with cpu := { s.cpu with a := .ofValue (immediateWord s.cfg.width imm), pc := s.cpu.pc + 1 } }) ∨
    (currentEffect s = none ∧ ∃ kind w, t = s.raise kind w) ∨
    (∃ w p e, currentCompute s = some w ∧
      evaluate s.cfg (fieldComp w) p (destOfCode (fieldDest w)) (jumpOfCode (fieldJump w)) s.cpu = .ok e ∧
      currentEffect s = some e ∧ t = { s with cpu := s.cpu.commit (destOfCode (fieldDest w)) e }) := by
  obtain ⟨w, hf, hw, hx⟩ := step_next h
  have hcur := currentCompute_eq hf hw
  cases hc : isCompute w with
  | false =>
    simp only [hc, decode, Bool.false_eq_true, if_false] at hcur hx
    exact .inl ⟨hcur, fieldImm w, (Host.Outcome.next.inj hx).symm⟩
  | true =>
    simp only [hc, decode, decodeCompute, if_true] at hcur hx
    cases hp : printModeOfCode s.cfg.printCode (fieldPrint w) with
    | none =>
      rw [hp] at hx
      exact .inr (.inl ⟨by simp [currentEffect, hcur, hp], _, _, (Host.Outcome.next.inj hx).symm⟩)
    | some p =>
      simp only [hp, exec_decodeComp] at hx
      obtain ⟨e, he, hcomp⟩ | ⟨kind, he, hcomp⟩ := compute_cases (fieldComp w) p (destOfCode (fieldDest w))
        (jumpOfCode (fieldJump w)) s <;> rw [hcomp] at hx
      · exact .inr (.inr ⟨w, p, e, hcur, he, by simp [currentEffect, hcur, hp, he], (Host.Outcome.next.inj hx).symm⟩)
      · exact .inr (.inl ⟨by simp [currentEffect, hcur, hp, he], kind, _, (Host.Outcome.next.inj hx).symm⟩)

theorem currentEffect_eq_none {s : State} (h : currentCompute s = none) : currentEffect s = none := by
  simp [currentEffect, h]

theorem ramWriteEnable_eq_false {s : State} (h : currentEffect s = none) : ramWriteEnable s = false := by
  simp only [ramWriteEnable, h]
  split <;> simp

theorem currentEvent_eq_none {s : State} (h : currentEffect s = none) : currentEvent s = none := by
  simp [currentEvent, h]

/-- A valid port address is A itself, not only its low 16 bits. -/
theorem toNat_portAddress {s : State} (h : ramAddressValid s = true) :
    (s.cpu.a.value.setWidth 16).toNat = preAddress s.cpu := by
  have hlt : s.cpu.a.value.toNat < 65536 := by
    simp only [ramAddressValid, Bool.and_eq_true, decide_eq_true_eq] at h
    exact h.2
  rw [BitVec.toNat_setWidth, Nat.mod_eq_of_lt hlt, preAddress]

/-- Under the spec's store address an effect that stores does so at the port address, which is valid (R144). -/
theorem evaluate_stores_at_port {s : State} {code : CompCode} {p : PrintMode} {dest : Dest} {jump : Jump}
    {e : Effect s.cfg.width} (hsrc : s.cfg.mAddrSource = .preA) (hm : dest.m = true)
    (h : evaluate s.cfg code p dest jump s.cpu = .ok e) :
    ramAddressValid s = true ∧ e.storeAddr = (s.cpu.a.value.setWidth 16).toNat := by
  obtain ⟨_, _, _, -, -, hcheck, -, -, -, -, -, -, haddr⟩ := evaluate_eq_ok h
  have hpre : storesAtPostA s.cfg dest = false := by simp [storesAtPostA, hsrc]
  have hvalid := ramAddressValid_of_check hcheck (by simp [addressesByPreA, hm, hpre])
  exact ⟨hvalid, by simp [haddr, storeAddress, hpre, toNat_portAddress hvalid]⟩

/-- Settles O42: the ports show a write exactly for an effect that stores, and then its address and its ALU result. -/
theorem portsDescribeTheStore : Obligations.PortsDescribeTheStore := by
  intro s t hsrc h
  obtain ⟨hnone, imm, rfl⟩ | ⟨hnone, kind, w, rfl⟩ | ⟨w, p, e, hcur, heval, heff, rfl⟩ := step_next_ports h
  · have hwe : (portsOf s).ramWe = false := ramWriteEnable_eq_false (currentEffect_eq_none hnone)
    exact ⟨_, rfl, fun _ => rfl, by simp [hwe]⟩
  · have hwe : (portsOf s).ramWe = false := ramWriteEnable_eq_false hnone
    exact ⟨_, rfl, fun _ => rfl, by simp [hwe]⟩
  · have hwe : (portsOf s).ramWe = (destOfCode (fieldDest w)).m := by
      simp [portsOf, ramWriteEnable, hcur, heff]
    refine ⟨_, rfl, fun hm => ?_, fun hm => ?_⟩ <;> rw [hwe] at hm
    · simp [hm]
    · obtain ⟨hvalid, haddr⟩ := evaluate_stores_at_port hsrc hm heval
      obtain ⟨r, hr, hout⟩ := aluResult_of_evaluate heval
      exact ⟨s.cpu.a.value.setWidth 16, e.out, if_pos hvalid, by simp [portsOf, ramWriteData, hcur, hr, hout],
        by simp [hm, haddr]⟩

theorem eventOfPorts_eq {W : Width} (ev : OutEvent W) :
    (if eventKind ev then OutEvent.chr (eventValue ev) else .dec (eventValue ev)) = ev := by
  cases ev <;> rfl

/-- A step appends the event that the ports are read from, if there is one. -/
theorem step_next_out {s t : State} (h : step s = .next t) :
    ∃ c : Cpu s.cfg.width, t = { s with cpu := c } ∧ c.out = s.cpu.out ++ (currentEvent s).toList := by
  obtain ⟨hnone, imm, rfl⟩ | ⟨hnone, kind, w, rfl⟩ | ⟨w, p, e, -, -, heff, rfl⟩ := step_next_ports h
  · exact ⟨_, rfl, by simp [currentEvent_eq_none (currentEffect_eq_none hnone)]⟩
  · exact ⟨_, rfl, by simp [currentEvent_eq_none hnone]⟩
  · exact ⟨_, rfl, by simp [currentEvent, heff]⟩

/-- Settles O43: the kind and the data of the ports give back the event that the step appends. -/
theorem portsDescribeTheOutput : Obligations.PortsDescribeTheOutput := by
  intro s t h
  obtain ⟨c, rfl, hout⟩ := step_next_out h
  refine ⟨c, rfl, ?_⟩
  cases hev : currentEvent s with
  | none => simp [portsOf, hev, hout]
  | some ev => simp [portsOf, hev, hout, eventOfPorts_eq]

/-! ### The operands of the ALU, where they can be read -/

theorem readReg_of_written {W : Width} {u : UninitRead} {r : Reg W} (h : Written r) : readReg u r = .ok r.value :=
  readReg_ok (by simp [readable, h])

theorem xOperand_of_XOk {s : State} {code : CompCode} (h : XOk s code) :
    xOperand s.cfg code s.cpu = .ok (xOf s code) := by
  cases hz : code[5] with
  | true => simp [xOperand, xOf, AluCtl.ofCode, hz]
  | false => simp [xOperand, xOf, AluCtl.ofCode, hz, readReg_of_written (h hz)]

theorem yOperand_of_YOk {s : State} {code : CompCode} (h : YOk s code) :
    yOperand s.cfg code s.cpu = .ok (yOf s code) := by
  cases hm : code[6] with
  | true => simp [yOperand, yOf, compReadsM, memWord, preAddress, hm]
  | false =>
    cases hz : code[3] with
    | true => simp [yOperand, yOf, compReadsM, AluCtl.ofCode, hm, hz]
    | false => simp [yOperand, yOf, compReadsM, AluCtl.ofCode, hm, hz, readReg_of_written (h hm hz)]

theorem checkPreAddress_of_MOk {s : State} {code : CompCode} {dest : Dest} (h : MOk s code dest) :
    checkPreAddress s.cfg code dest s.cpu = .ok () := by
  unfold checkPreAddress
  split
  · next haddr =>
    have hM : code[6] = true ∨ dest.m = true := by
      simp only [addressesByPreA, compReadsM, Bool.or_eq_true, Bool.and_eq_true] at haddr
      exact haddr.imp_right And.left
    rw [readReg_of_written (h hM).1]
    exact checkAddr_ok (h hM).2
  · rfl

theorem aluResult_of_operandsOk {s : State} {code : CompCode} (hx : XOk s code)
    (hm : MOk s code ⟨false, false, false⟩) (hy : YOk s code) :
    aluResult s.cfg code s.cpu = .ok (alu (AluCtl.ofCode code) (xOf s code) (yOf s code)) := by
  simp [aluResult, xOperand_of_XOk hx, checkPreAddress_of_MOk hm, yOperand_of_YOk hy]

/-- Settles O52: with its operands readable the ALU has its result at the port, and a written A in range is a valid port
address. -/
theorem portsShowTheAluResult : Obligations.PortsShowTheAluResult := by
  intro s
  refine ⟨fun w hf hw hc hx hm hy => ?_, fun ha hlt => ?_⟩
  · have hcur : currentCompute s = some w := by
      rw [currentCompute_eq (by simp [State.isFaulted, hf]) hw, if_pos hc]
    have hres := aluResult_of_operandsOk hx (fun h => hm (h.resolve_right Bool.false_ne_true)) hy
    simp [portsOf, ramWriteData, hcur, hres, outOf]
  · have hvalid : ramAddressValid s = true := by
      simp [ramAddressValid, readable, ha, preAddress, ramSize, hlt]
    exact ⟨⟨s.cpu.a.value.setWidth 16, if_pos hvalid, toNat_portAddress hvalid⟩, if_pos hvalid⟩

/-! ### Reset and the clock -/

/-- Settles O1: each field of the state that `State.load` builds. -/
theorem resetGivesTheStartState : Obligations.ResetGivesTheStartState := by
  intro cfg rom ram0
  exact ⟨rfl, rfl, rfl, rfl, rfl, rfl, rfl⟩

theorem Reg.sound_reset (W : Width) : Reg.sound (Reg.reset W) = true := by
  simp [Reg.sound]

theorem inv_load (cfg : Config) (rom : List InstrWord) {ram0 : Ram cfg.width} (h : ram0.wf = true) :
    Inv (State.load cfg rom ram0) where
  ram_wf := h
  ram0_wf := h
  a_sound := Reg.sound_reset _
  d_sound := Reg.sound_reset _
  fault_precise _ hr := by cases hr

/-- Settles O2: a canonical launch memory is all that the invariant needs at reset. -/
theorem resetMeetsTheInvariant : Obligations.ResetMeetsTheInvariant :=
  ⟨inv_load _ _ State.reset_ram_wf, fun cfg rom _ h => inv_load cfg rom h⟩

theorem clockEdge_of_next {s t : State} (h : step s = .next t) : clockEdge false s = t := by
  simp [clockEdge, h]

theorem clockEdge_of_fault {s : State} {r : Fault} (h : step s = .fault r) : clockEdge false s = s := by
  simp [clockEdge, h]

/-- A halted or a faulted machine has no step (R232, R253). -/
theorem step_at_end {s : State} (h : s.isHalted = true ∨ s.isFaulted = true) : ∃ r, step s = .fault r := by
  obtain ⟨-, hstep⟩ | ⟨-, -, hstep⟩ | ⟨w, hf, hw, -⟩ := step_cases s
  · exact ⟨_, hstep⟩
  · exact ⟨_, hstep⟩
  · have hlen : s.cpu.pc < s.rom.length := (List.getElem?_eq_some_iff.mp hw).1
    simp only [State.isHalted, hf, Bool.and_eq_true, decide_eq_true_eq, Bool.false_eq_true, or_false] at h
    exact absurd h.2 (by omega)

/-- Settles O44: `rst` loads the program again, and without it the edge is the step, if there is one. -/
theorem clockEdgeResetsOrSteps : Obligations.ClockEdgeResetsOrSteps := by
  intro s
  refine ⟨⟨Cpu.reset s.ram0, rfl, rfl, rfl, rfl, rfl, rfl, rfl⟩, fun t h => clockEdge_of_next h, fun hend => ?_⟩
  obtain ⟨r, hr⟩ := step_at_end hend
  exact clockEdge_of_fault hr

end Sys2Proof.Machine
end

section
/-! The statements of 20_memory.md: RAM as a function of its addresses, the ROM and the range fault, and the invariant
of the machine. -/

namespace Sys2Proof.Machine

open Claims

/-! ### RAM -/

section

variable {W : Width}

/-- A store gives its word back when it is read; for the word of an unlisted address this needs the canonical form. -/
theorem Ram.read_write_same {m : Ram W} (hm : m.wf = true) (addr : Nat) (w : Word W) :
    (m.write addr w).read addr = w := by
  rw [Ram.write]
  split
  · next hw => rw [Ram.read_erase_same hm, hw]
  · rw [Ram.read_insert, if_pos rfl]

theorem Ram.read_cons_self (k : Nat) (v : Word W) (rest : Ram W) : Ram.read ((k, v) :: rest) k = v := if_pos rfl

theorem Ram.read_cons_other {k addr : Nat} (h : k ≠ addr) (v : Word W) (rest : Ram W) :
    Ram.read ((k, v) :: rest) addr = rest.read addr := if_neg h

/-- The first listed address tells a canonical RAM from every one that lists only higher addresses. -/
theorem Ram.read_head_ne {lo lo' k : Nat} {v : Word W} {rest m : Ram W}
    (hc : Ram.wfFrom lo ((k, v) :: rest) = true) (hm : m.wfFrom lo' = true) (hk : k < lo') :
    Ram.read ((k, v) :: rest) k ≠ m.read k := by
  obtain ⟨-, -, hv, -⟩ := Ram.wfFrom_cons.mp hc
  rwa [Ram.read_cons_self, Ram.read_below hm hk]

/-- Two canonical RAMs with the same first entry that read alike also read alike behind it. -/
theorem Ram.tail_reads {k : Nat} {v : Word W} {rest rest' : Ram W} (h : rest.wfFrom (k + 1) = true)
    (h' : rest'.wfFrom (k + 1) = true) {addr : Nat}
    (hread : Ram.read ((k, v) :: rest) addr = Ram.read ((k, v) :: rest') addr) :
    rest.read addr = rest'.read addr := by
  by_cases hk : k = addr
  · rw [Ram.read_below h (by omega), Ram.read_below h' (by omega)]
  · rwa [Ram.read_cons_other hk, Ram.read_cons_other hk] at hread

/-- Canonical RAMs that read alike are the same list: by induction on the list, the first addresses agree, since the
lower of two different ones would tell the RAMs apart. -/
theorem Ram.eq_of_reads {lo : Nat} {m m' : Ram W} (hm : m.wfFrom lo = true) (hm' : m'.wfFrom lo = true)
    (hread : ∀ addr, addr < ramSize → m.read addr = m'.read addr) : m = m' := by
  induction m generalizing lo m' with
  | nil =>
    cases m' with
    | nil => rfl
    | cons entry' rest' =>
      obtain ⟨-, hk, -, -⟩ := Ram.wfFrom_cons.mp hm'
      exact absurd (hread _ hk).symm (Ram.read_head_ne (lo' := entry'.1 + 1) hm' rfl (by omega))
  | cons entry rest ih =>
    obtain ⟨k, v⟩ := entry
    obtain ⟨-, hk, hv, hrest⟩ := Ram.wfFrom_cons.mp hm
    cases m' with
    | nil => exact absurd (hread k hk) (Ram.read_head_ne (lo' := k + 1) hm rfl (by omega))
    | cons entry' rest' =>
      obtain ⟨k', v'⟩ := entry'
      obtain ⟨-, hk', hv', hrest'⟩ := Ram.wfFrom_cons.mp hm'
      obtain hlt | rfl | hgt := Nat.lt_trichotomy k k'
      · have hm' : Ram.wfFrom k' ((k', v') :: rest') = true := Ram.wfFrom_cons.mpr ⟨Nat.le_refl _, hk', hv', hrest'⟩
        exact absurd (hread k hk) (Ram.read_head_ne hm hm' hlt)
      · have hvv : v = v' := by simpa only [Ram.read_cons_self] using hread k hk
        subst hvv
        rw [ih hrest hrest' fun addr ha => Ram.tail_reads hrest hrest' (hread addr ha)]
      · have hm : Ram.wfFrom k ((k, v) :: rest) = true := Ram.wfFrom_cons.mpr ⟨Nat.le_refl _, hk, hv, hrest⟩
        exact absurd (hread k' hk').symm (Ram.read_head_ne hm' hm hgt)

end

/-- Settles O40: a store keeps the canonical form and is read back, and leaves every other address alone. -/
theorem readGivesTheLastStore : Obligations.ReadGivesTheLastStore := by
  intro W ram addr b v hwf haddr
  refine ⟨Ram.wf_write hwf haddr v, ?_⟩
  split
  · next hb => rw [hb, Ram.read_write_same hwf]
  · next hb => exact Ram.read_write_other ram v hb

/-- Settles O41: canonical RAM is extensional, from the lower bound 0 on. -/
theorem equalMemoriesAreEqualData : Obligations.EqualMemoriesAreEqualData :=
  fun _ _ _ hwf hwf' hread => Ram.eq_of_reads hwf hwf' hread

/-! ### ROM -/

/-- Settles O38: an instruction changes nothing but the CPU, of which ROM is no part. -/
theorem romIsNeverWritten : Obligations.RomIsNeverWritten := by
  intro i s t h
  obtain ⟨c, rfl, -⟩ := exec_next_appends h
  exact ⟨rfl, rfl⟩

/-! ### The range fault -/

theorem State.raise_inj {s : State} {kind kind' : FaultKind} {w w' : InstrWord}
    (h : s.raise kind w = s.raise kind' w') : kind = kind' ∧ w = w' := by
  simpa [State.raise] using h

theorem State.fault_of_eq_raise {s t : State} {kind : FaultKind} {w : InstrWord} (h : t = s.raise kind w) :
    t.cpu.fault ≠ none := by
  subst h
  simp

/-- The reserved print mode raises its own fault, or that of the comp code (R80, R234). -/
theorem reservedPrintFault_cases (cfg : Config) (comp : CompCode) :
    reservedPrintFault cfg comp = .nonCanonicalComp ∨ reservedPrintFault cfg comp = .reservedPrintMode := by
  rw [reservedPrintFault, checkComp]
  split
  · next hk => split at hk <;> cases hk; exact .inl rfl
  · exact .inr rfl

/-- Where a fault that an instruction raises comes from: the reserved print mode, or a check of the evaluate phase. -/
theorem exec_raises {i : Instr} {s : State} {kind : FaultKind} {w : InstrWord} (hf : s.cpu.fault = none)
    (h : exec i s = .next (s.raise kind w)) :
    (∃ comp dest jump, i = .reservedPrint comp dest jump ∧ kind = reservedPrintFault s.cfg comp) ∨
    (∃ code p dest jump, evaluate s.cfg code p dest jump s.cpu = .error kind) := by
  obtain ⟨imm, rfl⟩ | ⟨comp, dest, jump, rfl⟩ | ⟨code, p, dest, jump, hx, -⟩ := exec_cases i s
  · exact (State.fault_of_eq_raise (Host.Outcome.next.inj h) hf).elim
  · exact .inl ⟨comp, dest, jump, rfl, (State.raise_inj (Host.Outcome.next.inj h)).1.symm⟩
  · rw [hx] at h
    obtain ⟨e, -, hc⟩ | ⟨kind', he, hc⟩ := compute_cases code p dest jump s <;> rw [hc] at h
    · exact (State.fault_of_eq_raise (Host.Outcome.next.inj h) hf).elim
    · rw [(State.raise_inj (Host.Outcome.next.inj h)).1] at he
      exact .inr ⟨code, p, dest, jump, he⟩

/-- With W = 16 both addresses that the evaluate phase checks, A and A′, are below 2^16 (R51). -/
theorem evaluate_ne_rangeFault {cfg : Config} (hW : cfg.width = .w16) (code : CompCode) (p : PrintMode) (dest : Dest)
    (jump : Jump) (c : Cpu cfg.width) : evaluate cfg code p dest jump c ≠ .error .memAddrOutOfRange := by
  intro h
  obtain ⟨hk, -⟩ | ⟨hk, -⟩ | ⟨-, -, hpre⟩ | ⟨-, -, -, out, hpost⟩ := evaluate_eq_error h
  · cases hk
  · cases hk
  · exact absurd (toNat_lt_ramSize hW c.a.value) (Nat.not_lt.mpr hpre)
  · exact absurd (toNat_lt_ramSize hW out) (Nat.not_lt.mpr hpost)

/-- Settles O28: the reserved print mode never raises the range fault, and with W = 16 no check does. -/
theorem noRangeFaultAtSixteenBits : Obligations.NoRangeFaultAtSixteenBits := by
  intro i s w hf hW h
  obtain ⟨comp, dest, jump, -, hk⟩ | ⟨code, p, dest, jump, he⟩ := exec_raises hf h
  · obtain hk' | hk' := reservedPrintFault_cases s.cfg comp <;> rw [hk'] at hk <;> cases hk
  · exact evaluate_ne_rangeFault hW code p dest jump s.cpu he

/-! ### The invariant -/

/-- Every word is the word of the instruction it decodes to (R70, R79, R89). -/
theorem encode_decode (pc : PrintCode) (w : InstrWord) : encode pc (decode pc w) = w := by
  rw [decode]
  split
  · next hc =>
    rw [decodeCompute]
    split
    · next p hp => rw [encode_decodeComp, printModeCode_of_some hp, computeWord_fields hc]
    · next hp => rw [encode, ← eq_reserved_of_none hp, computeWord_fields hc]
  · next hc => exact addressWord_fieldImm (Bool.eq_false_iff.mpr hc)

theorem Reg.sound_ofValue {W : Width} (v : Word W) : Reg.sound (.ofValue v) = true := rfl

theorem Reg.sound_update {W : Width} {r : Reg W} (h : r.sound = true) (b : Bool) (v : Word W) :
    (r.update b v).sound = true := by
  cases b with
  | true => exact Reg.sound_ofValue v
  | false => exact h

/-- A store keeps RAM canonical, since the evaluate phase has checked its address (R50, R51). -/
theorem commit_ram_wf {cfg : Config} {code : CompCode} {p : PrintMode} {dest : Dest} {jump : Jump} {c : Cpu cfg.width}
    {e : Effect cfg.width} (he : evaluate cfg code p dest jump c = .ok e) (h : c.ram.wf = true) :
    (c.commit dest e).ram.wf = true := by
  rw [Cpu.commit_ram]
  split
  · next hm => exact Ram.wf_write h (evaluate_storeAddr_lt he hm) e.out
  · exact h

/-- Under the invariant, raising a fault for the word at PC makes a precise record (R28, R232). -/
theorem Inv.raise {s : State} (h : Inv s) (kind : FaultKind) {w : InstrWord} (hw : s.fetch = some w) :
    Inv (s.raise kind w) where
  ram_wf := h.ram_wf
  ram0_wf := h.ram0_wf
  a_sound := h.a_sound
  d_sound := h.d_sound
  fault_precise r hr := by
    obtain rfl := Option.some.inj hr
    exact decide_eq_true ⟨rfl, hw, rfl, rfl⟩

/-- Under the invariant, a CPU that records no fault needs canonical RAM and sound registers only. -/
theorem Inv.withCpu {s : State} (h : Inv s) {c : Cpu s.cfg.width} (hram : c.ram.wf = true) (ha : c.a.sound = true)
    (hd : c.d.sound = true) (hf : c.fault = none) : Inv { s with cpu := c } where
  ram_wf := hram
  ram0_wf := h.ram0_wf
  a_sound := ha
  d_sound := hd
  fault_precise r hr := by cases hf.symm.trans hr

/-- Settles O3, by the three next states of an instruction: a loaded A is written, a recorded fault has the fetched
word, and an effect stores in range. -/
theorem stepKeepsTheInvariant : Obligations.StepKeepsTheInvariant := by
  intro s t hinv hstep
  obtain ⟨w, hrunning, hw, hexec⟩ := step_next hstep
  have hnone : s.cpu.fault = none := by simpa [State.isFaulted] using hrunning
  obtain ⟨imm, -, rfl⟩ | ⟨kind, rfl⟩ | ⟨code, p, dest, jump, e, he, rfl⟩ := exec_next hexec
  · exact hinv.withCpu hinv.ram_wf (Reg.sound_ofValue _) hinv.d_sound hnone
  · rw [encode_decode]
    exact hinv.raise kind hw
  · exact hinv.withCpu (commit_ram_wf he hinv.ram_wf) (Reg.sound_update hinv.a_sound _ _)
      (Reg.sound_update hinv.d_sound _ _) hnone

end Sys2Proof.Machine
end

section
/-! The statements of 30_encoding.md about the decoder and the encoder: each undoes the other, and what the leading
bits of a word say. -/

namespace Sys2Proof.Machine

open Claims

/-! ### The three kinds of word -/

section

variable {pc : PrintCode} {w : InstrWord}

theorem decode_of_opcode_zero (h : isCompute w = false) : decode pc w = .addr (fieldImm w) := by
  simp [decode, h]

theorem decode_of_printMode {p : PrintMode} (h : isCompute w = true)
    (hp : printModeOfCode pc (fieldPrint w) = some p) :
    decode pc w = decodeComp (fieldComp w) p (destOfCode (fieldDest w)) (jumpOfCode (fieldJump w)) := by
  simp [decode, decodeCompute, h, hp]

theorem decode_of_reserved (h : isCompute w = true) (hp : fieldPrint w = pc.reserved) :
    decode pc w = .reservedPrint (fieldComp w) (destOfCode (fieldDest w)) (jumpOfCode (fieldJump w)) := by
  simp [decode, decodeCompute, h, hp]

end

/-! ### The comp table -/

/-- A comp code that the table's search finds is one of its rows. -/
theorem findComp_eq_some {code : CompCode} {rows : List CompRow} {mk : PrintMode → Dest → Jump → Instr}
    (h : findComp code rows = some mk) : ∃ row ∈ rows, row.instr = mk := by
  induction rows with
  | nil => cases h
  | cons row rows ih =>
    rw [findComp] at h
    split at h
    · exact ⟨row, List.mem_cons_self, Option.some.inj h⟩
    · obtain ⟨row', hmem, hmk⟩ := ih h
      exact ⟨row', List.mem_cons_of_mem _ hmem, hmk⟩

/-- A comp code that the table's search misses is the code of no row. -/
theorem findComp_eq_none {code : CompCode} {rows : List CompRow} (h : findComp code rows = none) :
    rows.any (fun row => row.code == code) = false := by
  induction rows with
  | nil => rfl
  | cons row rows ih =>
    rw [findComp] at h
    split at h
    · cases h
    · next hne => simp [hne, ih h]

theorem compTable_wf {row : CompRow} (h : row ∈ compTable) (p : PrintMode) (dest : Dest) (jump : Jump) :
    (row.instr p dest jump).wf = true := by
  have hall : (compTable.all fun row => (row.instr p dest jump).wf) = true := rfl
  exact List.all_eq_true.mp hall row h

/-- A legal C-instruction word decodes to a well-formed term: `nonCanonical` only stands for codes that R75 does
not list (R198). -/
theorem decodeComp_wf (code : CompCode) (p : PrintMode) (dest : Dest) (jump : Jump) :
    (decodeComp code p dest jump).wf = true := by
  rw [decodeComp]
  split
  · next hmk =>
    obtain ⟨row, hmem, rfl⟩ := findComp_eq_some hmk
    exact compTable_wf hmem p dest jump
  · next hnone => simp [Instr.wf, isCanonical, findComp_eq_none hnone]

/-! ### The round trips -/

theorem decode_addressWord (pc : PrintCode) (imm : BitVec 15) : decode pc (addressWord imm) = .addr imm := by
  rw [decode_of_opcode_zero (isCompute_addressWord imm), fieldImm_addressWord]

section

variable (pc : PrintCode) (code : CompCode) (dest : Dest) (jump : Jump)

theorem decode_computeWord_printMode (p : PrintMode) :
    decode pc (computeWord (printModeCode pc p) code dest jump) = decodeComp code p dest jump := by
  have hp : printModeOfCode pc (fieldPrint (computeWord (printModeCode pc p) code dest jump)) = some p := by
    rw [fieldPrint_computeWord, printModeOfCode_printModeCode]
  rw [decode_of_printMode (isCompute_computeWord ..) hp, fieldComp_computeWord, fieldDest_computeWord,
    fieldJump_computeWord, destOfCode_destCode, jumpOfCode_jumpCode]

theorem decode_computeWord_reserved :
    decode pc (computeWord pc.reserved code dest jump) = .reservedPrint code dest jump := by
  rw [decode_of_reserved (isCompute_computeWord ..) (fieldPrint_computeWord ..), fieldComp_computeWord,
    fieldDest_computeWord, fieldJump_computeWord, destOfCode_destCode, jumpOfCode_jumpCode]

end

/-- Settles O8, by the three kinds of well-formed instruction: each field's decoder undoes its encoder. -/
theorem decodeInvertsEncode : Obligations.DecodeInvertsEncode := by
  intro pc i hwf
  obtain ⟨imm, rfl⟩ | ⟨comp, dest, jump, rfl⟩ | ⟨code, p, dest, jump, rfl⟩ := wf_cases i hwf
  · exact decode_addressWord pc imm
  · exact decode_computeWord_reserved pc comp dest jump
  · rw [encode_decodeComp, decode_computeWord_printMode]

theorem decode_wf (pc : PrintCode) (w : InstrWord) : (decode pc w).wf = true := by
  cases hc : isCompute w with
  | false =>
    rw [decode_of_opcode_zero hc]
    rfl
  | true =>
    cases hp : printModeOfCode pc (fieldPrint w) with
    | none =>
      rw [decode_of_reserved hc (eq_reserved_of_none hp)]
      rfl
    | some p => rw [decode_of_printMode hc hp, decodeComp_wf]

/-- Settles O9: the second half is `encode_decode`. -/
theorem encodeInvertsDecode : Obligations.EncodeInvertsDecode :=
  fun pc w => ⟨decode_wf pc w, encode_decode pc w⟩

/-! ### The leading bits -/

theorem extractLsb'_opcode (w : InstrWord) : w.extractLsb' 15 1 = BitVec.ofBool (isCompute w) := by
  ext i hi
  obtain rfl : i = 0 := by omega
  simp [isCompute, BitVec.getLsbD_eq_getElem]

theorem extractLsb'_leading (w : InstrWord) :
    w.extractLsb' 13 3 = BitVec.ofBool (isCompute w) ++ fieldPrint w := by
  ext i hi
  rw [BitVec.getElem_append, ← extractLsb'_opcode]
  split
  · simp [fieldPrint]
  · simp only [BitVec.getElem_extractLsb']
    congr 1
    omega

/-- A word decodes to `@imm` exactly if its opcode bit is 0 (R70), under every assignment of print codes. -/
theorem decode_eq_addr_iff (pc : PrintCode) (w : InstrWord) :
    (∃ imm, decode pc w = .addr imm) ↔ isCompute w = false := by
  constructor
  · rintro ⟨imm, h⟩
    rw [← encode_decode pc w, h]
    exact isCompute_addressWord imm
  · exact fun h => ⟨_, decode_of_opcode_zero h⟩

/-- A word decodes to the reserved print mode exactly if its opcode bit is 1 and its print code the reserved
one (R80). -/
theorem decode_eq_reservedPrint_iff (pc : PrintCode) (w : InstrWord) :
    (∃ comp dest jump, decode pc w = .reservedPrint comp dest jump) ↔
      isCompute w = true ∧ fieldPrint w = pc.reserved := by
  constructor
  · rintro ⟨comp, dest, jump, h⟩
    rw [← encode_decode pc w, h]
    exact ⟨isCompute_computeWord .., fieldPrint_computeWord ..⟩
  · exact fun ⟨hc, hp⟩ => ⟨_, _, _, decode_of_reserved hc hp⟩

/-- Settles O10: the bits that the two groups are told by are the opcode bit and the print code. -/
theorem leadingBitsSelectTheGroup : Obligations.LeadingBitsSelectTheGroup := by
  intro w
  rw [decode_eq_addr_iff, decode_eq_reservedPrint_iff, extractLsb'_opcode, extractLsb'_leading]
  have hopcode : ∀ b : Bool, b = false ↔ BitVec.ofBool b = 0b0#1 := by decide
  have hleading : ∀ (b : Bool) (c : BitVec 2),
      b = true ∧ c = PrintCode.spec.reserved ↔ BitVec.ofBool b ++ c = 0b111#3 := by decide
  exact ⟨hopcode _, hleading _ _⟩

/-- Settles O11: nine closed words, decoded. -/
theorem sampleWordsDecode : Obligations.SampleWordsDecode := by
  unfold Obligations.SampleWordsDecode
  decide

/-! ### Execution -/

/-- Settles O7, by the three things an instruction can run: `@imm` and the reserved print mode answer at once, and the
datapath commits or records a fault. -/
theorem everyInstructionAnswersNext : Obligations.EveryInstructionAnswersNext := by
  intro i s
  obtain ⟨imm, rfl⟩ | ⟨comp, dest, jump, rfl⟩ | ⟨code, p, dest, jump, hx, -⟩ := exec_cases i s
  · exact ⟨_, rfl⟩
  · exact ⟨_, rfl⟩
  · rw [hx]
    obtain ⟨e, -, hc⟩ | ⟨kind, -, hc⟩ := compute_cases code p dest jump s
    · exact ⟨_, hc⟩
    · exact ⟨_, hc⟩

/-- The check of R199 passes wherever it is off or the comp code is canonical. -/
theorem checkComp_ok {cfg : Config} {code : CompCode} (h : cfg.compDecode = .bitRouted ∨ isCanonical code = true) :
    checkComp cfg code = .ok () := by
  obtain h | h := h <;> simp [checkComp, h]

/-- Settles O21: where R199's check passes, the reserved print mode raises its own fault. -/
theorem reservedPrintModeFaults : Obligations.ReservedPrintModeFaults := by
  intro code dest jump s h
  have hkind : reservedPrintFault s.cfg code = .reservedPrintMode := by
    rw [reservedPrintFault, checkComp_ok h]
  simp only [exec, execReservedPrint, hkind]
  rfl

end Sys2Proof.Machine
end

section
/-! The statements of 30_encoding.md about the assembler: the words it gives, its labels and its variables. -/

namespace Sys2Proof.Machine

open Claims

/-! ### The instructions of a program text -/

/-- What the assembler may give (R79, R88): an A-instruction, or a C-instruction with a canonical comp code and a legal
print mode. -/
def Assembled (i : Instr) : Prop :=
  (∃ imm, i = .addr imm) ∨ ∃ code p dest jump, isCanonical code = true ∧ i = decodeComp code p dest jump

/-- The comp codes of the spellings of `compNames`, in their order (R75). -/
def compNameCodes : List CompCode :=
  [0b0101010#7, 0b0111111#7, 0b0111010#7, 0b0001100#7, 0b0110000#7, 0b1110000#7, 0b0001101#7, 0b0110001#7,
   0b1110001#7, 0b0001111#7, 0b0110011#7, 0b1110011#7, 0b0011111#7, 0b0110111#7, 0b1110111#7, 0b0001110#7,
   0b0110010#7, 0b1110010#7, 0b0000010#7, 0b1000010#7, 0b0010011#7, 0b1010011#7, 0b0000111#7, 0b1000111#7,
   0b0000000#7, 0b1000000#7, 0b0010101#7, 0b1010101#7]

/-- A spelling selects the instruction that its comp code decodes to. -/
theorem compNames_map_snd : compNames.map (·.2) = compNameCodes.map decodeComp := rfl

theorem isCanonical_compNameCodes : ∀ code ∈ compNameCodes, isCanonical code = true := by decide

theorem compNames_lookup {name : Text} {mk : PrintMode → Dest → Jump → Instr} (h : compNames.lookup name = some mk) :
    ∃ code, isCanonical code = true ∧ mk = decodeComp code := by
  obtain ⟨front, back, hsplit, -⟩ := List.lookup_eq_some_iff.mp h
  have hmem : mk ∈ compNames.map (·.2) := by simp [hsplit]
  rw [compNames_map_snd] at hmem
  obtain ⟨code, hcode, hmk⟩ := List.mem_map.mp hmem
  exact ⟨code, isCanonical_compNameCodes code hcode, hmk.symm⟩

theorem parseCompute_assembled {t : Text} {i : Instr} (h : parseCompute t = some i) : Assembled i := by
  unfold parseCompute at h
  split at h
  · cases h
  split at h
  · cases h
  obtain ⟨mk, hmk, rfl⟩ := Option.map_eq_some_iff.mp h
  obtain ⟨code, hcode, rfl⟩ := compNames_lookup hmk
  exact .inr ⟨code, _, _, _, hcode, rfl⟩

theorem addressInstr_ok {v : Nat} (h : v ≤ 32767) (n : Nat) :
    addressInstr n v = .ok (.addr (BitVec.ofNat 15 v)) := if_neg (Nat.not_lt.mpr h)

theorem addressInstr_error {v : Nat} (h : 32767 < v) (n : Nat) :
    addressInstr n v = .error (.addressRange n) := if_pos h

theorem addressInstr_assembled {n v : Nat} {i : Instr} (h : addressInstr n v = .ok i) : Assembled i := by
  unfold addressInstr at h
  split at h
  · cases h
  · exact .inl ⟨_, (Except.ok.inj h).symm⟩

/-- Pass 2 on its first line, where it succeeds: a label gives nothing, any other line one instruction. -/
theorem assembleLines_cons_ok {labels : SymbolTable} {vars : Variables} {line : Nat × Line} {rest : List (Nat × Line)}
    {is : List Instr} (h : assembleLines labels vars (line :: rest) = .ok is) :
    (isInstrLine line = false ∧ assembleLines labels vars rest = .ok is) ∨
    ∃ vars' i is', isInstrLine line = true ∧ Assembled i ∧ assembleLines labels vars' rest = .ok is' ∧
      is = i :: is' := by
  obtain ⟨n, kind⟩ := line
  cases kind with
  | label name => exact .inl ⟨rfl, h⟩
  | address symbol =>
    obtain ⟨i, hi, h⟩ := bind_eq_ok h
    obtain ⟨is', his, h⟩ := bind_eq_ok h
    exact .inr ⟨_, i, is', rfl, addressInstr_assembled hi, his, (Except.ok.inj h).symm⟩
  | compute t =>
    rw [assembleLines] at h
    split at h
    · cases h
    · next i hi =>
      obtain ⟨is', his, h⟩ := bind_eq_ok h
      exact .inr ⟨_, i, is', rfl, parseCompute_assembled hi, his, (Except.ok.inj h).symm⟩

theorem assembleLines_assembled {labels : SymbolTable} {vars : Variables} {lines : List (Nat × Line)}
    {is : List Instr} (h : assembleLines labels vars lines = .ok is) : ∀ i ∈ is, Assembled i := by
  induction lines generalizing vars is with
  | nil => cases h; simp
  | cons line rest ih =>
    obtain ⟨-, hrest⟩ | ⟨vars', i, is', -, hi, hrest, rfl⟩ := assembleLines_cons_ok h
    · exact ih hrest
    · exact List.forall_mem_cons.mpr ⟨hi, ih hrest⟩

theorem instrCount_cons_of_label {line : Nat × Line} (h : isInstrLine line = false) (rest : List (Nat × Line)) :
    instrCount (line :: rest) = instrCount rest := by
  simp [instrCount, h]

theorem instrCount_cons_of_instr {line : Nat × Line} (h : isInstrLine line = true) (rest : List (Nat × Line)) :
    instrCount (line :: rest) = instrCount rest + 1 := by
  simp [instrCount, h]

theorem assembleLines_length {labels : SymbolTable} {vars : Variables} {lines : List (Nat × Line)}
    {is : List Instr} (h : assembleLines labels vars lines = .ok is) : is.length = instrCount lines := by
  induction lines generalizing vars is with
  | nil => cases h; rfl
  | cons line rest ih =>
    obtain ⟨hlabel, hrest⟩ | ⟨vars', i, is', hinstr, -, hrest, rfl⟩ := assembleLines_cons_ok h
    · rw [instrCount_cons_of_label hlabel, ih hrest]
    · rw [instrCount_cons_of_instr hinstr, List.length_cons, ih hrest]

theorem assemble_eq_ok {pc : PrintCode} {text : Text} {ws : List InstrWord} (h : assemble pc text = .ok ws) :
    ∃ is, assembleLines (collectLabels [] 0 (linesOf text)) .start (linesOf text) = .ok is ∧
      ws = is.map (encode pc) := by
  unfold assemble at h
  split at h
  · next is his => exact ⟨is, his, (Except.ok.inj h).symm⟩
  · cases h

/-- The word of an assembled instruction decodes to it. -/
theorem decode_encode_of_assembled {i : Instr} (h : Assembled i) (pc : PrintCode) : decode pc (encode pc i) = i := by
  obtain ⟨imm, rfl⟩ | ⟨code, p, dest, jump, -, rfl⟩ := h
  · exact decodeInvertsEncode pc _ rfl
  · exact decodeInvertsEncode pc _ (decodeComp_wf ..)

/-- Settles O46: what pass 2 gives is legal, and its word decodes to it. -/
theorem assembledWordsAreLegal : Obligations.AssembledWordsAreLegal := by
  intro pc text ws h w hw
  obtain ⟨is, his, rfl⟩ := assemble_eq_ok h
  obtain ⟨i, hi, rfl⟩ := List.mem_map.mp hw
  have hlegal := assembleLines_assembled his i hi
  rwa [decode_encode_of_assembled hlegal]

/-- Settles O47: pass 2 gives one instruction for each instruction line, and each has one word. -/
theorem assemblerCountsInstructions : Obligations.AssemblerCountsInstructions := by
  intro pc text ws h
  obtain ⟨is, his, rfl⟩ := assemble_eq_ok h
  rw [List.length_map, assembleLines_length his]

/-- Settles O51: the range check of `addressInstr` decides the line, and a value that passes fits 15 bits. -/
theorem addressesAboveFifteenBitsAreErrors : Obligations.AddressesAboveFifteenBitsAreErrors := by
  intro labels vars n symbol v
  refine ⟨fun hv rest => ?_, fun hv => ⟨BitVec.ofNat 15 v, ?_, ?_⟩⟩
  · rw [assembleLines, addressInstr_error hv, error_bind_eq]
  · rw [BitVec.toNat_ofNat]
    exact Nat.mod_eq_of_lt (Nat.lt_succ_of_le hv)
  · rw [assembleLines, addressInstr_ok hv, assembleLines]
    rfl

/-! ### Labels -/

/-- Pass 1 over an instruction line: the counter grows, and no label is defined. -/
theorem collectLabels_cons_of_instr {line : Nat × Line} (h : isInstrLine line = true) (labels : SymbolTable)
    (counter : Nat) (rest : List (Nat × Line)) :
    collectLabels labels counter (line :: rest) = collectLabels labels (counter + 1) rest := by
  obtain ⟨n, kind⟩ := line
  cases kind with
  | label name => cases h
  | address symbol => rfl
  | compute t => rfl

/-- A line that is no instruction is a label definition. -/
theorem eq_label_of_isInstrLine {line : Nat × Line} (h : isInstrLine line = false) :
    ∃ n name, line = (n, .label name) := by
  obtain ⟨n, kind⟩ := line
  cases kind with
  | label name => exact ⟨n, name, rfl⟩
  | address symbol => cases h
  | compute t => cases h

/-- Pass 1 over two parts of a program: the second starts with the labels and the counter that the first leaves. -/
theorem collectLabels_append (labels : SymbolTable) (counter : Nat) (before rest : List (Nat × Line)) :
    collectLabels labels counter (before ++ rest) =
      collectLabels (collectLabels labels counter before) (counter + instrCount before) rest := by
  induction before generalizing labels counter with
  | nil => rfl
  | cons line before ih =>
    cases hline : isInstrLine line with
    | false =>
      obtain ⟨n, name, rfl⟩ := eq_label_of_isInstrLine hline
      rw [instrCount_cons_of_label hline]
      exact ih ((name, counter) :: labels) counter
    | true =>
      rw [List.cons_append, collectLabels_cons_of_instr hline, collectLabels_cons_of_instr hline,
        instrCount_cons_of_instr hline, ih, Nat.add_assoc, Nat.add_comm 1]

/-- Lines that do not define a name leave its value alone. -/
theorem collectLabels_lookup_of_undefined {name : Text} {rest : List (Nat × Line)}
    (h : ∀ line ∈ rest, line.2 ≠ .label name) (labels : SymbolTable) (counter : Nat) :
    (collectLabels labels counter rest).lookup name = labels.lookup name := by
  induction rest generalizing labels counter with
  | nil => rfl
  | cons line rest ih =>
    obtain ⟨hhead, hrest⟩ := List.forall_mem_cons.mp h
    cases hline : isInstrLine line with
    | false =>
      obtain ⟨n, other, rfl⟩ := eq_label_of_isInstrLine hline
      have hne : name ≠ other := fun heq => hhead (by rw [heq])
      rw [collectLabels, ih hrest, List.lookup_cons, beq_false_of_ne hne]
    | true => rw [collectLabels_cons_of_instr hline, ih hrest]

/-- Settles O48: pass 1 reaches the definition with the number of instruction lines before it, and no later line
defines the name again. -/
theorem labelsNameTheNextInstruction : Obligations.LabelsNameTheNextInstruction := by
  intro before rest n name h
  rw [collectLabels_append, collectLabels, collectLabels_lookup_of_undefined h, List.lookup_cons_self, Nat.zero_add]

/-! ### Symbols -/

/-- The value of a symbol that is no variable: a literal, else a label, else a predefined name (R85). -/
def fixedValue (labels : SymbolTable) (symbol : Text) : Option Nat :=
  (literal? symbol).or ((labels.lookup symbol).or (predefined.lookup symbol))

section

variable {labels : SymbolTable} {vars : Variables} {x : Text} {v : Nat}

theorem fixedValue_eq_some :
    fixedValue labels x = some v ↔ literal? x = some v ∨ literal? x = none ∧
      (labels.lookup x = some v ∨ labels.lookup x = none ∧ predefined.lookup x = some v) := by
  rw [fixedValue, Option.or_eq_some_iff, Option.or_eq_some_iff]

theorem fixedValue_eq_none :
    fixedValue labels x = none ↔ literal? x = none ∧ labels.lookup x = none ∧ predefined.lookup x = none := by
  rw [fixedValue, Option.or_eq_none_iff, Option.or_eq_none_iff]

theorem resolve_of_fixedValue (h : fixedValue labels x = some v) (vars : Variables) :
    resolve labels vars x = (v, vars) := by
  obtain hlit | ⟨hlit, hlab | ⟨hlab, hpre⟩⟩ := fixedValue_eq_some.mp h
  · simp [resolve, hlit]
  · simp [resolve, hlit, hlab]
  · simp [resolve, hlit, hlab, hpre]

theorem resolve_of_seen (h : fixedValue labels x = none) (hx : vars.table.lookup x = some v) :
    resolve labels vars x = (v, vars) := by
  obtain ⟨hlit, hlab, hpre⟩ := fixedValue_eq_none.mp h
  simp [resolve, hlit, hlab, hpre, hx]

theorem resolve_of_new (h : fixedValue labels x = none) (hx : vars.table.lookup x = none) :
    resolve labels vars x = (vars.next, ⟨(x, vars.next) :: vars.table, vars.next + 1⟩) := by
  obtain ⟨hlit, hlab, hpre⟩ := fixedValue_eq_none.mp h
  simp [resolve, hlit, hlab, hpre, hx]

/-- What resolving a symbol can do: nothing for a fixed value or a variable seen before, else allocate the next
address (R85, R86). -/
theorem resolve_cases (labels : SymbolTable) (vars : Variables) (x : Text) :
    (∃ v, resolve labels vars x = (v, vars)) ∨
    (fixedValue labels x = none ∧ vars.table.lookup x = none ∧
      resolve labels vars x = (vars.next, ⟨(x, vars.next) :: vars.table, vars.next + 1⟩)) := by
  cases hfix : fixedValue labels x with
  | some v => exact .inl ⟨v, resolve_of_fixedValue hfix vars⟩
  | none =>
    cases hx : vars.table.lookup x with
    | some v => exact .inl ⟨v, resolve_of_seen hfix hx⟩
    | none => exact .inr ⟨rfl, rfl, resolve_of_new hfix hx⟩

/-- A symbol is resolved without an allocation exactly if it has a fixed value or is a variable seen before. -/
theorem resolve_eq_self_iff :
    resolve labels vars x = (v, vars) ↔
      fixedValue labels x = some v ∨ fixedValue labels x = none ∧ vars.table.lookup x = some v := by
  refine ⟨fun h => ?_, fun h => ?_⟩
  · cases hfix : fixedValue labels x with
    | some v' =>
      rw [resolve_of_fixedValue hfix] at h
      exact .inl (congrArg some (Prod.mk.inj h).1)
    | none =>
      cases hx : vars.table.lookup x with
      | some v' =>
        rw [resolve_of_seen hfix hx] at h
        exact .inr ⟨rfl, congrArg some (Prod.mk.inj h).1⟩
      | none =>
        rw [resolve_of_new hfix hx] at h
        have hnext : vars.next + 1 = vars.next := congrArg Variables.next (Prod.mk.inj h).2
        omega
  · obtain hfix | ⟨hfix, hx⟩ := h
    · exact resolve_of_fixedValue hfix vars
    · exact resolve_of_seen hfix hx

/-- A resolution keeps the address of every variable: only a name not seen before is added. -/
theorem resolve_keeps_lookup (h : vars.table.lookup x = some v) (labels : SymbolTable) (y : Text) :
    (resolve labels vars y).2.table.lookup x = some v := by
  obtain ⟨v', hy⟩ | ⟨-, hnone, hy⟩ := resolve_cases labels vars y <;> rw [hy]
  · exact h
  · have hne : x ≠ y := by
      rintro rfl
      cases h.symm.trans hnone
    rw [List.lookup_cons, beq_false_of_ne hne]
    exact h

/-- A symbol once resolved resolves to the same value again. -/
theorem resolve_again (labels : SymbolTable) (vars : Variables) (x : Text) :
    resolve labels (resolve labels vars x).2 x = ((resolve labels vars x).1, (resolve labels vars x).2) := by
  obtain ⟨v, hx⟩ | ⟨hfix, -, hx⟩ := resolve_cases labels vars x <;> rw [hx]
  · exact hx
  · exact resolve_of_seen hfix List.lookup_cons_self

/-- A symbol that is resolved without an allocation still is so after the resolution of another. -/
theorem resolve_stable (h : resolve labels vars x = (v, vars)) (y : Text) :
    resolve labels (resolve labels vars y).2 x = (v, (resolve labels vars y).2) :=
  resolve_eq_self_iff.mpr ((resolve_eq_self_iff.mp h).imp_right fun ⟨hfix, hx⟩ =>
    ⟨hfix, resolve_keeps_lookup hx labels y⟩)

theorem resolve_stable_afterAll (h : resolve labels vars x = (v, vars)) (later : List Text) :
    resolve labels (afterAll labels vars later) x = (v, afterAll labels vars later) := by
  induction later generalizing vars with
  | nil => exact h
  | cons y later ih => exact ih (resolve_stable h y)

end

/-- Settles O49: the first three clauses have a fixed value, the last a variable seen before. -/
theorem symbolsResolveInOrder : Obligations.SymbolsResolveInOrder := by
  intro labels vars symbol
  refine ⟨fun v h => ?_, fun hlit v h => ?_, fun hlit hlab v h => ?_, fun hlit hlab hpre v h => ?_⟩
  · exact resolve_of_fixedValue (fixedValue_eq_some.mpr (.inl h)) vars
  · exact resolve_of_fixedValue (fixedValue_eq_some.mpr (.inr ⟨hlit, .inl h⟩)) vars
  · exact resolve_of_fixedValue (fixedValue_eq_some.mpr (.inr ⟨hlit, .inr ⟨hlab, h⟩⟩)) vars
  · exact resolve_of_seen (fixedValue_eq_none.mpr ⟨hlit, hlab, hpre⟩) h

/-! ### Variables -/

theorem allocated_start : Allocated .start where
  next_eq := rfl
  names := List.nodup_nil
  addresses := List.nodup_nil
  range _ h := nomatch h

/-- A new name with the next address: the name is in no entry, and the address is above all that were given (R86). -/
theorem allocated_cons {vars : Variables} (h : Allocated vars) {x : Text} (hx : vars.table.lookup x = none) :
    Allocated ⟨(x, vars.next) :: vars.table, vars.next + 1⟩ where
  next_eq := by
    rw [List.length_cons, h.next_eq, Nat.add_assoc]
  names := by
    rw [List.map_cons, List.nodup_cons]
    refine ⟨fun hmem => ?_, h.names⟩
    obtain ⟨entry, hentry, hname⟩ := List.mem_map.mp hmem
    have hne := List.lookup_eq_none_iff.mp hx entry hentry
    simp [hname] at hne
  addresses := by
    rw [List.map_cons, List.nodup_cons]
    refine ⟨fun hmem => ?_, h.addresses⟩
    obtain ⟨entry, hentry, haddr⟩ := List.mem_map.mp hmem
    have hlt : entry.2 < vars.next := (h.range entry hentry).2
    exact absurd haddr (Nat.ne_of_lt hlt)
  range := by
    refine List.forall_mem_cons.mpr ⟨⟨?_, Nat.lt_succ_self _⟩, fun entry hentry => ?_⟩
    · rw [h.next_eq]
      exact Nat.le_add_right 16 _
    · exact (h.range entry hentry).imp_right Nat.lt_succ_of_lt

theorem allocated_resolve {vars : Variables} (h : Allocated vars) (labels : SymbolTable) (x : Text) :
    Allocated (resolve labels vars x).2 := by
  obtain ⟨v, hx⟩ | ⟨-, hnone, hx⟩ := resolve_cases labels vars x <;> rw [hx]
  · exact h
  · exact allocated_cons h hnone

/-- Settles O50: the form of the variables is kept by every resolution, and a resolved symbol is stable under further
ones. -/
theorem variablesCountFromSixteen : Obligations.VariablesCountFromSixteen := by
  intro labels
  refine ⟨⟨allocated_start, rfl⟩, fun vars x hlit hlab hpre hx => ?_, fun vars x h => allocated_resolve h labels x,
    fun vars x later => ?_⟩
  · exact resolve_of_new (fixedValue_eq_none.mpr ⟨hlit, hlab, hpre⟩) hx
  · exact resolve_stable_afterAll (resolve_again labels vars x) later

end Sys2Proof.Machine
end

section
/-! The statements of 40_alu.md: the closed form of each control setting, and the flags of the result. -/

namespace Sys2Proof.Machine

open Claims

/-! ### What the six control bits do -/

section

variable {W : Width} (v x y : Word W) (zx nx zy ny f no : Bool)

@[simp] theorem aluInput_keep : aluInput false false v = v := rfl

@[simp] theorem aluInput_complement : aluInput false true v = ~~~v := rfl

@[simp] theorem aluInput_zero : aluInput true false v = 0#W.bits := rfl

@[simp] theorem aluInput_zero_complement : aluInput true true v = BitVec.allOnes W.bits := BitVec.not_zero

@[simp] theorem alu_out_and :
    (alu ⟨zx, nx, zy, ny, false, false⟩ x y).out = aluInput zx nx x &&& aluInput zy ny y := rfl

@[simp] theorem alu_out_add :
    (alu ⟨zx, nx, zy, ny, true, false⟩ x y).out = aluInput zx nx x + aluInput zy ny y := rfl

@[simp] theorem alu_out_complement :
    (alu ⟨zx, nx, zy, ny, f, true⟩ x y).out = ~~~(alu ⟨zx, nx, zy, ny, f, false⟩ x y).out := rfl

end

/-- Settles O22, row by row of the closed forms. The Boolean laws give every row of AND and the rows of addition with an
operand 0; in the other rows of addition a complement is a negation less 1 (R115), and the row is a law of addition. -/
theorem aluMatchesTheClosedForms : Obligations.AluMatchesTheClosedForms := by
  intro W x y zx nx zy ny f no
  have two : 2#W.bits = 1#W.bits + 1#W.bits := BitVec.ofNat_add 1 1
  fun_cases aluClosedForm x y zx nx zy ny f no
  all_goals
    simp only [alu_out_and, alu_out_add, alu_out_complement, aluInput_keep, aluInput_complement, aluInput_zero,
      aluInput_zero_complement, BitVec.neg_one_eq_allOnes, BitVec.not_zero, BitVec.not_allOnes, BitVec.not_not,
      BitVec.zero_and, BitVec.and_zero, BitVec.allOnes_and, BitVec.and_allOnes, BitVec.not_and, BitVec.not_or,
      BitVec.zero_add, BitVec.add_zero]
  all_goals
    simp only [← BitVec.neg_one_eq_allOnes, BitVec.not_eq_neg_add, two]
    abel

/-! ### The flags -/

theorem alu_flags {W : Width} (c : AluCtl) (x y : Word W) : (alu c x y).flags = flagsOf (alu c x y).out := rfl

theorem flagsOf_negative_eq_msb {W : Width} (v : Word W) : (flagsOf v).negative = v.msb := rfl

/-- Settles O23: the flags are those of the result, whose most significant bit is its sign. -/
theorem aluFlagsDescribeTheResult : Obligations.AluFlagsDescribeTheResult := by
  intro W c x y
  rw [alu_flags]
  refine ⟨beq_iff_eq, ?_, flagsOf_negative _⟩
  rw [flagsOf_negative_eq_msb, BitVec.msb_eq_getLsbD_last]

end Sys2Proof.Machine
end

section
/-! The statement of 41_address_instruction.md: the value that `@imm` loads, and the state it leaves. -/

namespace Sys2Proof.Machine

/-- Both data words are wider than the immediate, so its zero extension has a sign bit of 0 (R73, R131). -/
theorem fifteen_lt_bits (W : Width) : 15 < W.bits := by
  cases W
  case w16 => exact (by decide : 15 < 16)
  case w64 => exact (by decide : 15 < 64)

section

variable (W : Width) (imm : BitVec 15)

theorem immediateWord_toNat : (immediateWord W imm).toNat = imm.toNat :=
  BitVec.toNat_setWidth_of_le (fifteen_lt_bits W).le

theorem immediateWord_toNat_lt : (immediateWord W imm).toNat < 32768 := by
  rw [immediateWord_toNat]
  exact imm.isLt

theorem immediateWord_toInt : (immediateWord W imm).toInt = imm.toNat := by
  rw [immediateWord, ← BitVec.setWidth'_eq (fifteen_lt_bits W).le]
  exact BitVec.toInt_setWidth'_of_lt (fifteen_lt_bits W)

theorem immediateWord_toInt_nonneg : 0 ≤ (immediateWord W imm).toInt := by
  rw [immediateWord_toInt]
  exact Int.natCast_nonneg _

end

/-- `@imm` loads A, advances PC and changes nothing else (R130, R131). -/
theorem exec_addr (imm : BitVec 15) (s : State) :
    exec (.addr imm) s =
      .next { s with cpu := { s.cpu with a := .ofValue (immediateWord s.cfg.width imm), pc := s.cpu.pc + 1 } } := rfl

/-- Settles O12: the word loaded is the zero-extended immediate. -/
theorem addressInstructionLoadsA : Obligations.AddressInstructionLoadsA := by
  intro imm s
  refine ⟨decode_addressWord s.cfg.printCode imm, immediateWord s.cfg.width imm, ?_, ?_, ?_, ?_⟩
  · exact immediateWord_toNat s.cfg.width imm
  · exact immediateWord_toNat_lt s.cfg.width imm
  · exact immediateWord_toInt_nonneg s.cfg.width imm
  · exact exec_addr imm s

end Sys2Proof.Machine
end

section
/-! The statements of 42_compute_instruction.md: the two halves of the evaluate phase, the order of its checks, the
alternative sources of a store and a print, and the frames. -/

namespace Sys2Proof.Machine

open Claims

/-! ### The evaluate phase, cut behind the ALU -/

/-- The evaluate phase behind the ALU: from the ALU result to the effect. -/
def afterAlu (cfg : Config) (p : PrintMode) (dest : Dest) (jump : Jump) (r : AluResult cfg.width) (c : Cpu cfg.width) :
    Except FaultKind (Effect cfg.width) := do
  checkPostAddress cfg dest r.out
  let taken ← jumpTaken cfg dest jump r c
  let next ← nextPc cfg dest taken r.out c
  let event ← printEvent cfg p dest r.out c
  return ⟨r.out, storeAddress cfg dest r.out c, next, event⟩

section

variable {cfg : Config} {code : CompCode} {p : PrintMode} {dest : Dest} {jump : Jump} {c : Cpu cfg.width}
  {x y : Word cfg.width} {r : AluResult cfg.width} {taken : Bool} {kind : FaultKind}

theorem evaluate_of_xFault (hcomp : checkComp cfg code = .ok ()) (hx : xOperand cfg code c = .error kind) :
    evaluate cfg code p dest jump c = .error kind := by
  simp [evaluate, hcomp, hx]

theorem evaluate_of_preAddressFault (hcomp : checkComp cfg code = .ok ()) (hx : xOperand cfg code c = .ok x)
    (haddr : checkPreAddress cfg code dest c = .error kind) : evaluate cfg code p dest jump c = .error kind := by
  simp [evaluate, hcomp, hx, haddr]

theorem evaluate_of_yFault (hcomp : checkComp cfg code = .ok ()) (hx : xOperand cfg code c = .ok x)
    (haddr : checkPreAddress cfg code dest c = .ok ()) (hy : yOperand cfg code c = .error kind) :
    evaluate cfg code p dest jump c = .error kind := by
  simp [evaluate, hcomp, hx, haddr, hy]

theorem evaluate_eq_afterAlu (hcomp : checkComp cfg code = .ok ()) (hx : xOperand cfg code c = .ok x)
    (haddr : checkPreAddress cfg code dest c = .ok ()) (hy : yOperand cfg code c = .ok y) :
    evaluate cfg code p dest jump c = afterAlu cfg p dest jump (alu (AluCtl.ofCode code) x y) c := by
  simp [evaluate, afterAlu, hcomp, hx, haddr, hy]

theorem afterAlu_of_postAddressFault (haddr : checkPostAddress cfg dest r.out = .error kind) :
    afterAlu cfg p dest jump r c = .error kind := by
  simp [afterAlu, haddr]

theorem afterAlu_of_jumpFault (haddr : checkPostAddress cfg dest r.out = .ok ())
    (hjump : jumpTaken cfg dest jump r c = .error kind) : afterAlu cfg p dest jump r c = .error kind := by
  simp [afterAlu, haddr, hjump]

theorem afterAlu_of_targetFault (haddr : checkPostAddress cfg dest r.out = .ok ())
    (hjump : jumpTaken cfg dest jump r c = .ok true) (htarget : jumpTarget cfg dest r.out c = .error kind) :
    afterAlu cfg p dest jump r c = .error kind := by
  simp [afterAlu, haddr, hjump, nextPc, htarget]

theorem nextPc_of_target {target : Word cfg.width} (h : taken = true → jumpTarget cfg dest r.out c = .ok target) :
    nextPc cfg dest taken r.out c = .ok (if taken then target.toNat else c.pc + 1) := by
  cases taken with
  | false => rfl
  | true => simp [nextPc, h rfl]

/-- The event of a print mode is the one that `Claims.events` says, if the printed value can be read where one is
printed (R147, R148). -/
theorem printEvent_of_value {out v : Word cfg.width} (h : p ≠ .noPrint → printedValue cfg dest out c = .ok v) :
    ∃ event, printEvent cfg p dest out c = .ok event ∧ event.toList = events p v := by
  cases p with
  | noPrint => exact ⟨none, rfl, rfl⟩
  | print => exact ⟨some (.dec v), by simp [printEvent, h], rfl⟩
  | printChar => exact ⟨some (.chr v), by simp [printEvent, h], rfl⟩

theorem printEvent_of_valueFault {out : Word cfg.width} (hp : p ≠ .noPrint)
    (h : printedValue cfg dest out c = .error kind) : printEvent cfg p dest out c = .error kind := by
  cases p with
  | noPrint => exact absurd rfl hp
  | print => simp [printEvent, h]
  | printChar => simp [printEvent, h]

theorem afterAlu_of_printFault {target : Word cfg.width} (haddr : checkPostAddress cfg dest r.out = .ok ())
    (hjump : jumpTaken cfg dest jump r c = .ok taken)
    (htarget : taken = true → jumpTarget cfg dest r.out c = .ok target)
    (hprint : printEvent cfg p dest r.out c = .error kind) : afterAlu cfg p dest jump r c = .error kind := by
  simp [afterAlu, haddr, hjump, nextPc_of_target htarget, hprint]

end

/-! ### Each check of a C-instruction, in a state -/

theorem readReg_of_unwritten {W : Width} {u : UninitRead} {r : Reg W} (hu : u = .fault) (h : ¬ Written r) :
    readReg u r = .error .uninitRegisterRead :=
  readReg_error (by simp [readable, hu, Bool.eq_false_iff.mpr h])

/-- The jump condition on the flags of a value is the table of R77 on the value as a signed number (R210). -/
theorem jumpCond_flagsOf {W : Width} (jump : Jump) (v : Word W) :
    jumpCond jump (flagsOf v) = signedTaken jump v.toInt := by
  have hz : (flagsOf v).zero = decide (v.toInt = 0) := Bool.eq_iff_iff.mpr (by simp [flagsOf_zero])
  have hn : (flagsOf v).negative = decide (v.toInt < 0) := Bool.eq_iff_iff.mpr (by simp [flagsOf_negative])
  rw [Bool.eq_iff_iff]
  cases jump <;> simp [jumpCond, jumpLt, jumpEq, jumpGt, signedTaken, hz, hn] <;> omega

section

variable {s : State} {code : CompCode} {p : PrintMode} {dest : Dest} {jump : Jump}

theorem xOperand_of_not_XOk (hu : s.cfg.uninitRead = .fault) (h : ¬ XOk s code) :
    xOperand s.cfg code s.cpu = .error .uninitRegisterRead := by
  obtain ⟨hz, hd⟩ := Classical.not_imp.mp h
  simp [xOperand, AluCtl.ofCode, hz, readReg_of_unwritten hu hd]

theorem yOperand_of_not_YOk (hu : s.cfg.uninitRead = .fault) (h : ¬ YOk s code) :
    yOperand s.cfg code s.cpu = .error .uninitRegisterRead := by
  obtain ⟨hm, h⟩ := Classical.not_imp.mp h
  obtain ⟨hz, ha⟩ := Classical.not_imp.mp h
  simp [yOperand, compReadsM, AluCtl.ofCode, hm, hz, readReg_of_unwritten hu ha]

theorem storesAtPostA_of_preA (h : s.cfg.mAddrSource = .preA) : storesAtPostA s.cfg dest = false := by
  simp [storesAtPostA, h]

theorem addressesByPreA_of_preA (h : s.cfg.mAddrSource = .preA) (hm : code[6] = true ∨ dest.m = true) :
    addressesByPreA s.cfg code dest = true := by
  simpa [addressesByPreA, compReadsM, storesAtPostA_of_preA h] using hm

theorem checkPreAddress_of_unwritten (hu : s.cfg.uninitRead = .fault)
    (hpre : addressesByPreA s.cfg code dest = true) (ha : ¬ Written s.cpu.a) :
    checkPreAddress s.cfg code dest s.cpu = .error .uninitRegisterRead := by
  simp [checkPreAddress, hpre, readReg_of_unwritten hu ha]

theorem checkPreAddress_of_range (hpre : addressesByPreA s.cfg code dest = true) (ha : Written s.cpu.a)
    (hrange : 65536 ≤ s.cpu.a.value.toNat) :
    checkPreAddress s.cfg code dest s.cpu = .error .memAddrOutOfRange := by
  simp [checkPreAddress, hpre, readReg_of_written ha, checkAddr_error hrange]

theorem checkPostAddress_of_preA (h : s.cfg.mAddrSource = .preA) (out : Word s.cfg.width) :
    checkPostAddress s.cfg dest out = .ok () := by
  simp [checkPostAddress, storesAtPostA_of_preA h]

theorem storeAddress_of_preA (h : s.cfg.mAddrSource = .preA) (out : Word s.cfg.width) :
    storeAddress s.cfg dest out s.cpu = s.cpu.a.value.toNat := by
  simp [storeAddress, storesAtPostA_of_preA h, preAddress]

theorem readPostD_of_written (h : dest.d = false → Written s.cpu.d) (out : Word s.cfg.width) :
    readPostD s.cfg dest out s.cpu = .ok (postD s dest out) := by
  cases hd : dest.d with
  | true => simp [readPostD, postD, hd]
  | false => simp [readPostD, postD, hd, readReg_of_written (h hd)]

theorem readPostD_of_unwritten (hu : s.cfg.uninitRead = .fault) (hd : dest.d = false) (h : ¬ Written s.cpu.d)
    (out : Word s.cfg.width) : readPostD s.cfg dest out s.cpu = .error .uninitRegisterRead := by
  simp [readPostD, hd, readReg_of_unwritten hu h]

/-- A jump decides by the signed value of its operand, which it reads only if its code is neither 000 nor 111. -/
theorem jumpTaken_of_operand {r : AluResult s.cfg.width} {v : Word s.cfg.width}
    (h : jump ≠ .never → jump ≠ .jmp → jumpFlags s.cfg dest r s.cpu = .ok (flagsOf v)) :
    jumpTaken s.cfg dest jump r s.cpu = .ok (signedTaken jump v.toInt) := by
  unfold jumpTaken
  split
  · next hn => subst hn; rfl
  · next hn =>
    split
    · next hj => subst hj; rfl
    · next hj => simp [h hn hj, jumpCond_flagsOf]

theorem jumpTaken_of_postWriteD (hop : s.cfg.jumpOperand = .postWriteD)
    (hd : dest.d = false → jump ≠ .never → jump ≠ .jmp → Written s.cpu.d) (r : AluResult s.cfg.width) :
    jumpTaken s.cfg dest jump r s.cpu = .ok (taken s dest jump r.out) :=
  jumpTaken_of_operand fun hn hj => by
    simp [jumpFlags, hop, readPostD_of_written (fun h => hd h hn hj)]

theorem jumpTaken_of_operandFault (hop : s.cfg.jumpOperand = .postWriteD) (hu : s.cfg.uninitRead = .fault)
    (hd : dest.d = false) (hn : jump ≠ .never) (hj : jump ≠ .jmp) (h : ¬ Written s.cpu.d)
    (r : AluResult s.cfg.width) : jumpTaken s.cfg dest jump r s.cpu = .error .uninitRegisterRead := by
  simp [jumpTaken, hn, hj, jumpFlags, hop, readPostD_of_unwritten hu hd h]

theorem jumpTarget_of_written (hsrc : s.cfg.jumpTargetSource = .postA) (h : dest.a = false → Written s.cpu.a)
    (out : Word s.cfg.width) : jumpTarget s.cfg dest out s.cpu = .ok (postA s dest out) := by
  cases ha : dest.a with
  | true => simp [jumpTarget, postA, hsrc, ha]
  | false => simp [jumpTarget, postA, ha, readReg_of_written (h ha)]

theorem jumpTarget_of_unwritten (hu : s.cfg.uninitRead = .fault) (ha : dest.a = false) (h : ¬ Written s.cpu.a)
    (out : Word s.cfg.width) : jumpTarget s.cfg dest out s.cpu = .error .uninitRegisterRead := by
  simp [jumpTarget, ha, readReg_of_unwritten hu h]

theorem printedValue_of_aluOut (h : s.cfg.printValue = .aluOut) (out : Word s.cfg.width) :
    printedValue s.cfg dest out s.cpu = .ok out := by
  simp [printedValue, h]

theorem printedValue_of_postWriteD (h : s.cfg.printValue = .postWriteD) (out : Word s.cfg.width) :
    printedValue s.cfg dest out s.cpu = readPostD s.cfg dest out s.cpu := by
  simp [printedValue, h]

/-! ### What an instruction does, from its checks -/

/-- A fault of the evaluate phase is the instruction's (R232). -/
theorem exec_decodeComp_of_error {kind : FaultKind} (h : evaluate s.cfg code p dest jump s.cpu = .error kind) :
    exec (decodeComp code p dest jump) s = .next (faultedWith s kind (wordOf s code p dest jump)) :=
  (exec_decodeComp ..).trans (compute_error h)

/-- The ALU result of a comp code on the values of the registers, with its flags. -/
def resultOf (s : State) (code : CompCode) : AluResult s.cfg.width := alu (AluCtl.ofCode code) (xOf s code) (yOf s code)

theorem resultOf_out : (resultOf s code).out = outOf s code := rfl

/-- The checks before the ALU pass: that of the comp code (R199), and those of x, of an M address by A_pre and of y (R151,
items 2 to 5). -/
structure OperandsOk (s : State) (code : CompCode) (dest : Dest) : Prop where
  comp : checkComp s.cfg code = .ok ()
  x : XOk s code
  address : checkPreAddress s.cfg code dest s.cpu = .ok ()
  y : YOk s code

/-- Once its operands are read, an instruction gives what the rest of the evaluate phase makes of the ALU result. -/
theorem OperandsOk.evaluate_eq (h : OperandsOk s code dest) (p : PrintMode) (jump : Jump) :
    evaluate s.cfg code p dest jump s.cpu = afterAlu s.cfg p dest jump (resultOf s code) s.cpu :=
  evaluate_eq_afterAlu h.comp (xOperand_of_XOk h.x) h.address (yOperand_of_YOk h.y)

theorem OperandsOk.faults (h : OperandsOk s code dest) {kind : FaultKind}
    (hk : afterAlu s.cfg p dest jump (resultOf s code) s.cpu = .error kind) :
    exec (decodeComp code p dest jump) s = .next (faultedWith s kind (wordOf s code p dest jump)) :=
  exec_decodeComp_of_error ((h.evaluate_eq p jump).trans hk)

/-- The commit phase leaves the state that `Claims.afterWith` says (R141, R146, R148, R149). -/
theorem commit_eq_afterWith (out : Word s.cfg.width) (jumps : Bool) (target addr : Nat) {printed : Word s.cfg.width}
    {event : Option (OutEvent s.cfg.width)} (hevent : event.toList = events p printed) :
    { s with cpu := s.cpu.commit dest ⟨out, addr, if jumps then target else s.cpu.pc + 1, event⟩ } =
      afterWith s p dest out jumps target addr printed := by
  simp [Cpu.commit, afterWith, hevent, Reg.update, Reg.ofValue]

/-- An instruction all of whose checks pass stores at its store address, jumps to its target and prints its value. -/
theorem OperandsOk.next (h : OperandsOk s code dest) {jumps : Bool} {target printed : Word s.cfg.width}
    (hpost : checkPostAddress s.cfg dest (outOf s code) = .ok ())
    (hjump : jumpTaken s.cfg dest jump (resultOf s code) s.cpu = .ok jumps)
    (htarget : jumps = true → jumpTarget s.cfg dest (outOf s code) s.cpu = .ok target)
    (hprint : p ≠ .noPrint → printedValue s.cfg dest (outOf s code) s.cpu = .ok printed) :
    exec (decodeComp code p dest jump) s = .next (afterWith s p dest (outOf s code) jumps target.toNat
      (storeAddress s.cfg dest (outOf s code) s.cpu) printed) := by
  obtain ⟨event, hev, hlist⟩ := printEvent_of_value hprint
  rw [← resultOf_out] at hpost htarget hev
  have heval := h.evaluate_eq p jump
  simp only [afterAlu, hpost, hjump, nextPc_of_target htarget, hev, ok_bind_eq, pure_eq_ok] at heval
  rw [exec_decodeComp, compute_ok heval, commit_eq_afterWith _ _ _ _ hlist, resultOf_out]

end

/-! ### A step -/

/-- Settles O5: of the three things a step can do, the two stops need a recorded fault or no word at PC. -/
theorem stepRunsTheDecodedInstruction : Obligations.StepRunsTheDecodedInstruction := by
  intro s w hnone hw
  obtain ⟨hf, -⟩ | ⟨-, hw', -⟩ | ⟨w', -, hw', hstep⟩ := step_cases s
  · simp [State.isFaulted, hnone] at hf
  · cases hw.symm.trans hw'
  · cases hw.symm.trans hw'
    exact hstep

/-- A faulted machine has no step (R232). -/
theorem step_of_faulted {s : State} (h : s.isFaulted = true) : step s = .fault .faulted := if_pos h

/-! ### The order of the checks -/

/-- Settles O24, check by check: those before the ALU in turn, and behind it the jump operand and the jump target. -/
theorem faultChecksInOrder : Obligations.FaultChecksInOrder := by
  rintro code p dest jump s ⟨hroute, hpre, -, hop, -⟩
  have hcomp : checkComp s.cfg code = .ok () := checkComp_ok (.inl hroute)
  have hpost := checkPostAddress_of_preA (dest := dest) hpre (resultOf s code).out
  have hops (hx : XOk s code) (hm : MOk s code dest) (hy : YOk s code) : OperandsOk s code dest :=
    ⟨hcomp, hx, checkPreAddress_of_MOk hm, hy⟩
  refine ⟨?reserved, fun hu hx => ?x, fun hu hx hm ha => ?address, fun hx hm ha hrange => ?range,
    fun hu hx hm hy => ?y, fun hu hx hm hy hd hn hj hw => ?operand, fun hu hx hm hy hd ht ha hw => ?target,
    fun t => step_of_faulted⟩
  case reserved => exact reservedPrintModeFaults code dest jump s (.inl hroute)
  case x => exact exec_decodeComp_of_error (evaluate_of_xFault hcomp (xOperand_of_not_XOk hu hx))
  case address =>
    have haddr := checkPreAddress_of_unwritten hu (addressesByPreA_of_preA hpre hm) ha
    exact exec_decodeComp_of_error (evaluate_of_preAddressFault hcomp (xOperand_of_XOk hx) haddr)
  case range =>
    have haddr := checkPreAddress_of_range (addressesByPreA_of_preA hpre hm) ha hrange
    exact exec_decodeComp_of_error (evaluate_of_preAddressFault hcomp (xOperand_of_XOk hx) haddr)
  case y =>
    exact exec_decodeComp_of_error
      (evaluate_of_yFault hcomp (xOperand_of_XOk hx) (checkPreAddress_of_MOk hm) (yOperand_of_not_YOk hu hy))
  case operand =>
    exact (hops hx hm hy).faults (afterAlu_of_jumpFault hpost (jumpTaken_of_operandFault hop hu hd hn hj hw _))
  case target =>
    have hjump := jumpTaken_of_postWriteD hop hd (resultOf s code)
    rw [resultOf_out, ht] at hjump
    exact (hops hx hm hy).faults (afterAlu_of_targetFault hpost hjump (jumpTarget_of_unwritten hu ha hw _))

/-! ### The alternative sources of a store and a print -/

section

variable {s : State} {code : CompCode} {dest : Dest}

theorem storesAtPostA_of_postA (h : s.cfg.mAddrSource = .postA) (ha : dest.a = true) :
    storesAtPostA s.cfg dest = true := by
  simp [storesAtPostA, h, ha]

/-- An instruction that stores at A′ addresses M by A_pre only to read it (R142, R144). -/
theorem checkPreAddress_of_postA (hst : storesAtPostA s.cfg dest = true)
    (h : code[6] = true → Written s.cpu.a ∧ s.cpu.a.value.toNat < 65536) :
    checkPreAddress s.cfg code dest s.cpu = .ok () := by
  cases hm : code[6] with
  | false => simp [checkPreAddress, addressesByPreA, compReadsM, hst, hm]
  | true =>
    obtain ⟨ha, hlt⟩ := h hm
    simp [checkPreAddress, addressesByPreA, compReadsM, hm, readReg_of_written ha, checkAddr_ok hlt]

theorem checkPostAddress_of_postA (hst : storesAtPostA s.cfg dest = true) (hm : dest.m = true)
    (out : Word s.cfg.width) : checkPostAddress s.cfg dest out = checkAddr out.toNat := by
  simp [checkPostAddress, hst, hm]

theorem storeAddress_of_postA (hst : storesAtPostA s.cfg dest = true) (out : Word s.cfg.width) :
    storeAddress s.cfg dest out s.cpu = out.toNat := by
  simp [storeAddress, hst]

theorem postA_of_dest (ha : dest.a = true) (out : Word s.cfg.width) : postA s dest out = out := if_pos ha

end

/-- Settles O33: the ALU result is A′, so it is the store address, the address that is checked, and the jump target. -/
theorem storeGoesToTheNewA : Obligations.StoreGoesToTheNewA := by
  intro code p dest jump s hroute htarget hop hprint hsrc ha hm hx hread hy
  have hst := storesAtPostA_of_postA hsrc ha
  have hops : OperandsOk s code dest := ⟨checkComp_ok (.inl hroute), hx, checkPreAddress_of_postA hst hread, hy⟩
  have hpost := checkPostAddress_of_postA hst hm (outOf s code)
  refine ⟨fun hlt hd => ?_, fun hge => ?_⟩
  · have hpc := jumpTarget_of_written (dest := dest) htarget (fun h => absurd (h.symm.trans ha) Bool.false_ne_true)
      (outOf s code)
    rw [postA_of_dest ha] at hpc
    have hnext := hops.next (p := p) (hpost.trans (checkAddr_ok hlt)) (jumpTaken_of_postWriteD hop hd _) (fun _ => hpc)
      (fun _ => printedValue_of_aluOut hprint _)
    rwa [storeAddress_of_postA hst] at hnext
  · exact hops.faults (afterAlu_of_postAddressFault (hpost.trans (checkAddr_error hge)))

/-- Settles O34: D′ is the last thing the instruction reads, so its fault comes behind all other checks (log 10). -/
theorem printEmitsThePostWriteD : Obligations.PrintEmitsThePostWriteD := by
  rintro code p dest jump s hroute hpre htarget hop hprint hx hm hy ⟨-, hoperand, hpc⟩
  have hops : OperandsOk s code dest := ⟨checkComp_ok (.inl hroute), hx, checkPreAddress_of_MOk hm, hy⟩
  have hpost := checkPostAddress_of_preA (dest := dest) hpre (outOf s code)
  have hjump := jumpTaken_of_postWriteD hop hoperand (resultOf s code)
  have hto (ht : taken s dest jump (outOf s code) = true) :=
    jumpTarget_of_written htarget (fun ha => hpc ha ht) (outOf s code)
  have hvalue := printedValue_of_postWriteD (dest := dest) hprint (outOf s code)
  refine ⟨fun hd => ?_, fun hu hp hd hw => ?_⟩
  · have hnext := hops.next hpost hjump hto fun hp => hvalue.trans (readPostD_of_written (hd hp) _)
    rwa [storeAddress_of_preA hpre] at hnext
  · exact hops.faults (afterAlu_of_printFault hpost hjump hto
      (printEvent_of_valueFault hp (hvalue.trans (readPostD_of_unwritten hu hd hw _))))

/-! ### Frames -/

section

variable {s t : State} {code : CompCode} {p : PrintMode} {dest : Dest} {jump : Jump} {e : Effect s.cfg.width}

theorem xOperand_eq_ok {x : Word s.cfg.width} (h : xOperand s.cfg code s.cpu = .ok x) : x = xOf s code := by
  cases hz : code[5] with
  | true => simpa [xOperand, xOf, AluCtl.ofCode, hz] using h.symm
  | false =>
    simp only [xOperand, AluCtl.ofCode, hz, Bool.false_eq_true, if_false] at h
    simpa [xOf, hz] using (readReg_eq_ok h).2

theorem yOperand_eq_ok {y : Word s.cfg.width} (h : yOperand s.cfg code s.cpu = .ok y) : y = yOf s code := by
  cases hm : code[6] with
  | true => simpa [yOperand, yOf, compReadsM, memWord, preAddress, hm] using h.symm
  | false =>
    cases hz : code[3] with
    | true => simpa [yOperand, yOf, compReadsM, AluCtl.ofCode, hm, hz] using h.symm
    | false =>
      simp only [yOperand, compReadsM, AluCtl.ofCode, hm, hz, Bool.false_eq_true, if_false] at h
      simpa [yOf, hm, hz] using (readReg_eq_ok h).2

/-- An effect stores at the address that the ALU result gives. -/
theorem evaluate_storeAddr (he : evaluate s.cfg code p dest jump s.cpu = .ok e) :
    e.storeAddr = storeAddress s.cfg dest (outOf s code) s.cpu := by
  obtain ⟨x, y, _, -, hx, -, hy, hout, -, -, -, -, haddr⟩ := evaluate_eq_ok he
  rw [haddr, hout, xOperand_eq_ok hx, yOperand_eq_ok hy, outOf]

theorem evaluate_noPrint (he : evaluate s.cfg code .noPrint dest jump s.cpu = .ok e) : e.event = none := by
  obtain ⟨_, _, _, -, -, -, -, -, -, -, -, hevent, -⟩ := evaluate_eq_ok he
  exact (Except.ok.inj hevent).symm

/-- What a C-instruction leaves unchanged, whatever its dest and the configuration: RAM but for the address a store
goes to, the registers that dest does not name, the output so far, and all but the record where it faults. -/
theorem exec_decodeComp_frame (h : exec (decodeComp code p dest jump) s = .next t) :
    ∃ c : Cpu s.cfg.width, t = { s with cpu := c } ∧
      (∀ addr, (dest.m = true → storeAddress s.cfg dest (outOf s code) s.cpu ≠ addr) →
        c.ram.read addr = s.cpu.ram.read addr) ∧
      (dest.a = false → c.a = s.cpu.a) ∧ (dest.d = false → c.d = s.cpu.d) ∧
      (p = .noPrint → c.out = s.cpu.out) ∧ (∃ evs, c.out = s.cpu.out ++ evs) ∧
      (c.fault ≠ s.cpu.fault → c = { s.cpu with fault := c.fault }) := by
  rw [exec_decodeComp] at h
  obtain ⟨e, he, hc⟩ | ⟨kind, -, hc⟩ := compute_cases code p dest jump s <;> cases hc.symm.trans h
  · refine ⟨_, rfl, fun addr haddr => ?ram, fun ha => ?a, fun hd => ?d, fun hp => ?out, ⟨_, Cpu.commit_out ..⟩,
      fun hf => absurd rfl hf⟩
    case ram =>
      rw [Cpu.commit_ram]
      split
      · next hm => exact Ram.read_write_other _ _ (evaluate_storeAddr he ▸ (haddr hm).symm)
      · rfl
    case a => rw [Cpu.commit_a, ha, Reg.update_false]
    case d => rw [Cpu.commit_d, hd, Reg.update_false]
    case out =>
      subst hp
      rw [Cpu.commit_out, evaluate_noPrint he, Option.toList_none, List.append_nil]
  · exact ⟨_, rfl, fun _ _ => rfl, fun _ => rfl, fun _ => rfl, fun _ => rfl, ⟨[], (List.append_nil _).symm⟩,
      fun _ => rfl⟩

end

/-- Settles O35: with no M in dest no address is stored to. -/
theorem frameOfNonStoringInstructions : Obligations.FrameOfNonStoringInstructions := by
  intro code p dest jump s t hm h
  obtain ⟨c, ht, hram, hrest⟩ := exec_decodeComp_frame h
  exact ⟨c, ht, fun addr => hram addr fun hm' => absurd (hm.symm.trans hm') Bool.false_ne_true, hrest⟩

/-- Settles O36: with M in dest the one address stored to is the store address. -/
theorem frameOfStoringInstructions : Obligations.FrameOfStoringInstructions := by
  intro code p dest jump s t _ h
  obtain ⟨c, ht, hram, hrest⟩ := exec_decodeComp_frame h
  exact ⟨c, ht, fun addr haddr => hram addr fun _ => haddr, hrest⟩

/-! ### A D that is not read -/

section

variable {cfg : Config} {code : CompCode} {p : PrintMode} {dest : Dest} {jump : Jump}

theorem xOperand_ignores_d (hz : code[5] = true) (c : Cpu cfg.width) (d : Reg cfg.width) :
    xOperand cfg code { c with d := d } = xOperand cfg code c := by
  simp [xOperand, AluCtl.ofCode, hz]

theorem jumpTaken_ignores_d (hj : jump = .never ∨ jump = .jmp ∨ cfg.jumpOperand = .aluOut)
    (r : AluResult cfg.width) (c : Cpu cfg.width) (d : Reg cfg.width) :
    jumpTaken cfg dest jump r { c with d := d } = jumpTaken cfg dest jump r c := by
  obtain rfl | rfl | hop := hj
  · rfl
  · rfl
  · simp [jumpTaken, jumpFlags, hop]

theorem printEvent_ignores_d (hp : p = .noPrint ∨ cfg.printValue = .aluOut) (out : Word cfg.width) (c : Cpu cfg.width)
    (d : Reg cfg.width) : printEvent cfg p dest out { c with d := d } = printEvent cfg p dest out c := by
  obtain rfl | hv := hp
  · rfl
  · simp [printEvent, printedValue, hv]

/-- Where neither x, nor the jump operand, nor the printed value is D, the evaluate phase does not depend on D: its
other reads are of A and of RAM (R142). -/
theorem evaluate_ignores_d (hz : code[5] = true) (hj : jump = .never ∨ jump = .jmp ∨ cfg.jumpOperand = .aluOut)
    (hp : p = .noPrint ∨ cfg.printValue = .aluOut) (c : Cpu cfg.width) (d : Reg cfg.width) :
    evaluate cfg code p dest jump { c with d := d } = evaluate cfg code p dest jump c := by
  simp only [evaluate, xOperand_ignores_d hz, jumpTaken_ignores_d hj, printEvent_ignores_d hp]
  rfl

theorem commit_withD {W : Width} (c : Cpu W) (d : Reg W) (e : Effect W) (hd : dest.d = false) :
    Cpu.commit { c with d := d } dest e = { c.commit dest e with d := d } := by
  simp [Cpu.commit, hd]

end

/-- Settles O39: an instruction that records no fault commits its effect, which is the same with another D. -/
theorem unreadDDoesNotMatter : Obligations.UnreadDDoesNotMatter := by
  intro code p dest jump s d c hz hd hj hp _ h hnone
  rw [exec_decodeComp] at h ⊢
  obtain ⟨e, he, hc⟩ | ⟨kind, -, hc⟩ := compute_cases code p dest jump s <;> cases hc.symm.trans h
  · have he' := (evaluate_ignores_d (dest := dest) hz hj hp s.cpu d).trans he
    rw [compute_ok (s := { s with cpu := { s.cpu with d := d } }) he', commit_withD _ _ _ hd]
  · cases hnone

/-! ### The text of the output -/

section

variable {W : Width} (renderDecimal renderChar : Word W → String)

theorem renderOutput_append (xs ys : List (OutEvent W)) :
    renderOutput renderDecimal renderChar (xs ++ ys) =
      renderOutput renderDecimal renderChar xs ++ renderOutput renderDecimal renderChar ys := by
  induction xs with
  | nil => exact String.empty_append.symm
  | cons e xs ih => rw [List.cons_append, renderOutput, ih, renderOutput, String.append_assoc]

theorem renderOutput_singleton (e : OutEvent W) :
    renderOutput renderDecimal renderChar [e] = renderEvent renderDecimal renderChar e := String.append_empty

end

/-- Settles O45: rendering turns `++` of streams into `++` of texts, and the last event is a stream of its own. -/
theorem outputRendersInOrder : Obligations.OutputRendersInOrder := by
  intro W renderDecimal renderChar xs ys v
  refine ⟨renderOutput_append .., ?_, ?_⟩
  · rw [renderOutput_append, renderOutput_singleton, renderEvent]
  · rw [renderOutput_append, renderOutput_singleton, renderEvent]

end Sys2Proof.Machine
end

section
/-! The statements of 43_comp_operations.md: what every comp code does, by the operands it reads and the closed form of
its control bits; from it the 28 canonical operations and the codes without a mnemonic. -/

namespace Sys2Proof.Machine

open Claims

/-! ### Any comp code -/

/-- Everything in the rule of a comp operation but its result holds for every comp code, with or without a mnemonic. -/
theorem compRule_decodeComp (code : CompCode) : CompRule (decodeComp code) code where
  word pc p dest jump := encode_decodeComp pc code p dest jump
  decoded pc p dest jump := decode_computeWord_printMode pc code dest jump p
  reserved dest jump s hroute := by
    rw [decode_computeWord_reserved]
    exact reservedPrintModeFaults code dest jump s (.inl hroute)
  flags W x y := by
    obtain ⟨hz, hn, -⟩ := aluFlagsDescribeTheResult W (AluCtl.ofCode code) x y
    exact ⟨Bool.eq_iff_iff.mpr (hz.trans decide_eq_true_iff.symm), Bool.eq_iff_iff.mpr hn⟩

section

variable {s : State} {code : CompCode} {p : PrintMode} {dest : Dest} {jump : Jump}

theorem faults_decodeComp_iff {kind : FaultKind} : Faults (decodeComp code p dest jump) s kind ↔
    exec (decodeComp code p dest jump) s = .next (faultedWith s kind (wordOf s code p dest jump)) := by
  rw [Faults, encode_decodeComp, wordOf]

theorem faults_of_not_XOk (hs : SpecSources s.cfg) (hu : s.cfg.uninitRead = .fault) (h : ¬ XOk s code) :
    Faults (decodeComp code p dest jump) s .uninitRegisterRead := by
  obtain ⟨-, hx, -⟩ := faultChecksInOrder code p dest jump s hs
  exact faults_decodeComp_iff.mpr (hx hu h)

/-- An unwritten A faults in each role before the jump: as the address of M, and as y. If D is read as x and is unwritten
too, its fault comes first and has the same kind. -/
theorem faults_of_unwritten_a (hs : SpecSources s.cfg) (hu : s.cfg.uninitRead = .fault)
    (hread : code[6] = true ∨ code[3] = false ∨ dest.m = true) (ha : ¬ Written s.cpu.a) :
    Faults (decodeComp code p dest jump) s .uninitRegisterRead := by
  obtain ⟨-, -, haddr, -, hy, -⟩ := faultChecksInOrder code p dest jump s hs
  by_cases hx : XOk s code
  · refine faults_decodeComp_iff.mpr ?_
    by_cases hm : code[6] = true ∨ dest.m = true
    · exact haddr hu hx hm ha
    · obtain ⟨h6, hdm⟩ := not_or.mp hm
      have h3 : code[3] = false := (hread.resolve_left h6).resolve_right hdm
      exact hy hu hx (fun h => absurd h hm) fun h => ha (h (Bool.eq_false_iff.mpr h6) h3)
  · exact faults_of_not_XOk hs hu hx

/-- An instruction that reads D as x and A, or M at A, faults if either is unwritten. -/
theorem faults_of_unwritten_d_or_a (hs : SpecSources s.cfg) (hu : s.cfg.uninitRead = .fault) (hx : code[5] = false)
    (hread : code[6] = true ∨ code[3] = false) (h : ¬ (Written s.cpu.d ∧ Written s.cpu.a)) :
    Faults (decodeComp code p dest jump) s .uninitRegisterRead := by
  by_cases hd : Written s.cpu.d
  · exact faults_of_unwritten_a hs hu (hread.imp_right .inl) fun ha => h ⟨hd, ha⟩
  · exact faults_of_not_XOk hs hu fun hok => hd (hok hx)

theorem faults_of_range (hs : SpecSources s.cfg) (hx : XOk s code) (hm : code[6] = true ∨ dest.m = true)
    (ha : Written s.cpu.a) (hrange : 65536 ≤ s.cpu.a.value.toNat) :
    Faults (decodeComp code p dest jump) s .memAddrOutOfRange := by
  obtain ⟨-, -, -, haddr, -⟩ := faultChecksInOrder code p dest jump s hs
  exact faults_decodeComp_iff.mpr (haddr hx hm ha hrange)

/-- With the operands of its ALU readable a comp code gives its ALU result. -/
theorem gives_decodeComp (hs : SpecSources s.cfg) (hx : XOk s code)
    (hM : code[6] = true → Written s.cpu.a ∧ s.cpu.a.value.toNat < 65536) (hy : YOk s code) :
    Gives (decodeComp code p dest jump) p dest jump s (outOf s code) where
  next := by
    rintro ⟨hstore, hoperand, htarget⟩
    have hok : OperandsOk s code dest :=
      ⟨checkComp_ok (.inl hs.compDecode), hx, checkPreAddress_of_MOk (Or.rec hM hstore), hy⟩
    have hnext := hok.next (p := p) (checkPostAddress_of_preA hs.mAddr _)
      (jumpTaken_of_postWriteD hs.operand hoperand _)
      (fun ht => jumpTarget_of_written hs.target (fun ha => htarget ha ht) _)
      (fun _ => printedValue_of_aluOut hs.printed _)
    rwa [storeAddress_of_preA hs.mAddr] at hnext
  faults := by
    obtain ⟨-, -, -, -, -, hjump, hto, -⟩ := faultChecksInOrder code p dest jump s hs
    exact {
      storeUnwritten := fun hu hm ha => faults_of_unwritten_a hs hu (.inr (.inr hm)) ha
      storeRange := fun hm ha hrange => faults_of_range hs hx (.inr hm) ha hrange
      operand := fun hu hm hd hn hj hw =>
        faults_decodeComp_iff.mpr (hjump hu hx (Or.rec hM hm) hy hd hn hj hw)
      target := fun hu hm hd ha ht hw =>
        faults_decodeComp_iff.mpr (hto hu hx (Or.rec hM hm) hy hd ht ha hw) }

end

/-! ### The result of a comp code -/

/-- The closed form of a comp code's six control bits (R110, R143). -/
def closedForm {W : Width} (code : CompCode) (x y : Word W) : Word W :=
  aluClosedForm x y code[5] code[4] code[3] code[2] code[1] code[0]

section

variable {s : State} {code : CompCode} {p : PrintMode} {dest : Dest} {jump : Jump} {x y : Word s.cfg.width}

theorem outOf_eq_closedForm : outOf s code = closedForm code (xOf s code) (yOf s code) :=
  aluMatchesTheClosedForms ..

theorem xOf_zero (h : code[5] = true) : xOf s code = 0#_ := if_pos h

theorem xOf_d (h : code[5] = false) : xOf s code = s.cpu.d.value := by
  simp [xOf, h]

theorem yOf_m (h : code[6] = true) : yOf s code = memWord s := if_pos h

theorem yOf_zero (h : code[6] = false) (hz : code[3] = true) : yOf s code = 0#_ := by
  simp [yOf, h, hz]

theorem yOf_a (h : code[6] = false) (hz : code[3] = false) : yOf s code = s.cpu.a.value := by
  simp [yOf, h, hz]

theorem XOk_of_zero (h : code[5] = true) : XOk s code := by
  simp [XOk, h]

theorem YOk_of_m (h : code[6] = true) : YOk s code := by
  simp [YOk, h]

theorem YOk_of_zero (h : code[3] = true) : YOk s code := by
  simp [YOk, h]

/-- With its operands named, a comp code gives the closed form on them. -/
theorem gives_closedForm (hs : SpecSources s.cfg) (hx : XOk s code)
    (hM : code[6] = true → Written s.cpu.a ∧ s.cpu.a.value.toNat < 65536) (hy : YOk s code) (hxv : xOf s code = x)
    (hyv : yOf s code = y) : Gives (decodeComp code p dest jump) p dest jump s (closedForm code x y) := by
  rw [← hxv, ← hyv, ← outOf_eq_closedForm]
  exact gives_decodeComp hs hx hM hy

end

/-! ### The six shapes of operation, by the operands read -/

/-- A comp code with zx = 1, a = 0 and zy = 1 reads nothing. -/
theorem constantOp_decodeComp (code : CompCode) {f : (W : Width) → Word W}
    (hf : ∀ W, closedForm code 0#_ 0#_ = f W) (hx : code[5] = true := by rfl) (hm : code[6] = false := by rfl)
    (hy : code[3] = true := by rfl) : CompRule (decodeComp code) code ∧ ConstantOp (decodeComp code) f := by
  refine ⟨compRule_decodeComp code, fun p dest jump s hs => ?_⟩
  rw [← hf]
  exact gives_closedForm hs (XOk_of_zero hx) (by simp [hm]) (YOk_of_zero hy) (xOf_zero hx) (yOf_zero hm hy)

/-- A comp code with zx = 0, a = 0 and zy = 1 reads D. -/
theorem dOp_decodeComp (code : CompCode) {f : (W : Width) → Word W → Word W}
    (hf : ∀ W (d : Word W), closedForm code d 0#_ = f W d) (hx : code[5] = false := by rfl)
    (hm : code[6] = false := by rfl) (hy : code[3] = true := by rfl) :
    CompRule (decodeComp code) code ∧ DOp (decodeComp code) f := by
  refine ⟨compRule_decodeComp code, fun p dest jump s hs => ⟨fun hd => ?_, fun hu hd => ?_⟩⟩
  · rw [← hf]
    exact gives_closedForm hs (fun _ => hd) (by simp [hm]) (YOk_of_zero hy) (xOf_d hx) (yOf_zero hm hy)
  · exact faults_of_not_XOk hs hu fun h => hd (h hx)

/-- A comp code with zx = 1, a = 0 and zy = 0 reads A as y. -/
theorem aOp_decodeComp (code : CompCode) {f : (W : Width) → Word W → Word W}
    (hf : ∀ W (a : Word W), closedForm code 0#_ a = f W a) (hx : code[5] = true := by rfl)
    (hm : code[6] = false := by rfl) (hy : code[3] = false := by rfl) :
    CompRule (decodeComp code) code ∧ AOp (decodeComp code) f := by
  refine ⟨compRule_decodeComp code, fun p dest jump s hs => ⟨fun ha => ?_, fun hu ha => ?_⟩⟩
  · rw [← hf]
    exact gives_closedForm hs (XOk_of_zero hx) (by simp [hm]) (fun _ _ => ha) (xOf_zero hx) (yOf_a hm hy)
  · exact faults_of_unwritten_a hs hu (.inr (.inl hy)) ha

/-- A comp code with zx = 1 and a = 1 reads M. -/
theorem mOp_decodeComp (code : CompCode) {f : (W : Width) → Word W → Word W}
    (hf : ∀ W (m : Word W), closedForm code 0#_ m = f W m) (hx : code[5] = true := by rfl)
    (hm : code[6] = true := by rfl) : CompRule (decodeComp code) code ∧ MOp (decodeComp code) f := by
  refine ⟨compRule_decodeComp code, fun p dest jump s hs =>
    ⟨fun ha hlt => ?_, fun hu ha => ?_, fun ha hrange => ?_⟩⟩
  · rw [← hf]
    exact gives_closedForm hs (XOk_of_zero hx) (fun _ => ⟨ha, hlt⟩) (YOk_of_m hm) (xOf_zero hx) (yOf_m hm)
  · exact faults_of_unwritten_a hs hu (.inl hm) ha
  · exact faults_of_range hs (XOk_of_zero hx) (.inl hm) ha hrange

/-- A comp code with zx = 0, a = 0 and zy = 0 reads D and A. -/
theorem daOp_decodeComp (code : CompCode) {f : (W : Width) → Word W → Word W → Word W}
    (hf : ∀ W (d a : Word W), closedForm code d a = f W d a) (hx : code[5] = false := by rfl)
    (hm : code[6] = false := by rfl) (hy : code[3] = false := by rfl) :
    CompRule (decodeComp code) code ∧ DAOp (decodeComp code) f := by
  refine ⟨compRule_decodeComp code, fun p dest jump s hs => ⟨fun hd ha => ?_, fun hu h => ?_⟩⟩
  · rw [← hf]
    exact gives_closedForm hs (fun _ => hd) (by simp [hm]) (fun _ _ => ha) (xOf_d hx) (yOf_a hm hy)
  · exact faults_of_unwritten_d_or_a hs hu hx (.inr hy) h

/-- A comp code with zx = 0 and a = 1 reads D and M. -/
theorem dmOp_decodeComp (code : CompCode) {f : (W : Width) → Word W → Word W → Word W}
    (hf : ∀ W (d m : Word W), closedForm code d m = f W d m) (hx : code[5] = false := by rfl)
    (hm : code[6] = true := by rfl) : CompRule (decodeComp code) code ∧ DMOp (decodeComp code) f := by
  refine ⟨compRule_decodeComp code, fun p dest jump s hs =>
    ⟨fun hd ha hlt => ?_, fun hu h => ?_, fun hd ha hrange => ?_⟩⟩
  · rw [← hf]
    exact gives_closedForm hs (fun _ => hd) (fun _ => ⟨ha, hlt⟩) (YOk_of_m hm) (xOf_d hx) (yOf_m hm)
  · exact faults_of_unwritten_d_or_a hs hu hx (.inl hm) h
  · exact faults_of_range hs (fun _ => hd) (.inl hm) ha hrange

/-! ### The 28 canonical operations -/

/-- Settles O13: the closed forms of the three codes; that of `-1` is the all-ones word. -/
theorem constantOperations : Obligations.ConstantOperations :=
  ⟨constantOp_decodeComp 0b0101010#7 fun _ => rfl, constantOp_decodeComp 0b0111111#7 fun _ => rfl,
    constantOp_decodeComp 0b0111010#7 fun _ => BitVec.neg_one_eq_allOnes⟩

/-- Settles O14: five codes that read D alone, each with its closed form of x (R110). -/
theorem dOperations : Obligations.DOperations :=
  ⟨dOp_decodeComp 0b0001100#7 fun _ _ => rfl, dOp_decodeComp 0b0001101#7 fun _ _ => rfl,
    dOp_decodeComp 0b0001111#7 fun _ _ => rfl, dOp_decodeComp 0b0011111#7 fun _ _ => rfl,
    dOp_decodeComp 0b0001110#7 fun _ _ => rfl⟩

/-- Settles O15: five codes that read A alone, each with its closed form of y (R110). -/
theorem aOperations : Obligations.AOperations :=
  ⟨aOp_decodeComp 0b0110000#7 fun _ _ => rfl, aOp_decodeComp 0b0110001#7 fun _ _ => rfl,
    aOp_decodeComp 0b0110011#7 fun _ _ => rfl, aOp_decodeComp 0b0110111#7 fun _ _ => rfl,
    aOp_decodeComp 0b0110010#7 fun _ _ => rfl⟩

/-- Settles O16: the codes of O15 with a = 1, and so with M as y (R74). -/
theorem mOperations : Obligations.MOperations :=
  ⟨mOp_decodeComp 0b1110000#7 fun _ _ => rfl, mOp_decodeComp 0b1110001#7 fun _ _ => rfl,
    mOp_decodeComp 0b1110011#7 fun _ _ => rfl, mOp_decodeComp 0b1110111#7 fun _ _ => rfl,
    mOp_decodeComp 0b1110010#7 fun _ _ => rfl⟩

/-- Settles O17: five codes that read both registers. That of `D-A` complements x and the sum, so that x is the
minuend; that of `A-D` complements y and the sum. -/
theorem dAndAOperations : Obligations.DAndAOperations :=
  ⟨daOp_decodeComp 0b0000010#7 fun _ _ _ => rfl, daOp_decodeComp 0b0010011#7 fun _ _ _ => rfl,
    daOp_decodeComp 0b0000111#7 fun _ _ _ => rfl, daOp_decodeComp 0b0000000#7 fun _ _ _ => rfl,
    daOp_decodeComp 0b0010101#7 fun _ _ _ => rfl⟩

/-- Settles O18: the codes of O17 with a = 1, and so with M as y (R74). -/
theorem dAndMOperations : Obligations.DAndMOperations :=
  ⟨dmOp_decodeComp 0b1000010#7 fun _ _ _ => rfl, dmOp_decodeComp 0b1010011#7 fun _ _ _ => rfl,
    dmOp_decodeComp 0b1000111#7 fun _ _ _ => rfl, dmOp_decodeComp 0b1000000#7 fun _ _ _ => rfl,
    dmOp_decodeComp 0b1010101#7 fun _ _ _ => rfl⟩

/-! ### The codes without a mnemonic -/

/-- The table's search misses a code that no row has. -/
theorem findComp_of_any_eq_false {code : CompCode} {rows : List CompRow}
    (h : rows.any (fun row => row.code == code) = false) : findComp code rows = none := by
  induction rows with
  | nil => rfl
  | cons row rows ih =>
    obtain ⟨hne, hrest⟩ := Bool.or_eq_false_iff.mp h
    rw [findComp, if_neg (beq_eq_false_iff_ne.mp hne), ih hrest]

theorem decodeComp_of_nonCanonical {code : CompCode} (h : isCanonical code = false) :
    decodeComp code = .nonCanonical code := by
  funext p dest jump
  rw [decodeComp, findComp_of_any_eq_false h]

/-- Settles O19: what every comp code does, for one that decodes to `nonCanonical`. -/
theorem nonCanonicalOperations : Obligations.NonCanonicalOperations := by
  intro code hcode
  rw [← decodeComp_of_nonCanonical hcode]
  exact ⟨compRule_decodeComp code, fun p dest jump s hs => ⟨gives_decodeComp hs, faults_of_not_XOk hs,
    fun hu hread => faults_of_unwritten_a hs hu (hread.imp_right .inl),
    fun hx hm => faults_of_range hs hx (.inl hm)⟩⟩

/-! ### The check of R199 -/

section

variable {cfg : Config} {code : CompCode}

theorem checkComp_error (hcfg : cfg.compDecode = .canonicalOnly) (hcode : isCanonical code = false) :
    checkComp cfg code = .error .nonCanonicalComp := if_pos ⟨hcfg, hcode⟩

theorem evaluate_of_compFault {kind : FaultKind} (h : checkComp cfg code = .error kind) (p : PrintMode) (dest : Dest)
    (jump : Jump) (c : Cpu cfg.width) : evaluate cfg code p dest jump c = .error kind := by
  simp [evaluate, h]

/-- Where its check passes the policy for comp codes does not matter, since no other part of the evaluate phase asks
for it. -/
theorem evaluate_bitRouted (h : checkComp cfg code = .ok ()) (p : PrintMode) (dest : Dest) (jump : Jump)
    (c : Cpu cfg.width) :
    evaluate { cfg with compDecode := .bitRouted } code p dest jump c = evaluate cfg code p dest jump c := by
  have h' : checkComp { cfg with compDecode := .bitRouted } code = .ok () := checkComp_ok (.inl rfl)
  simp only [evaluate, h, h']
  rfl

end

section

variable {s : State} {code : CompCode}

/-- A comp code whose check passes leaves the same CPU under `bitRouted`, a fault record included. -/
theorem exec_bitRouted (h : checkComp s.cfg code = .ok ()) (p : PrintMode) (dest : Dest) (jump : Jump) :
    ∃ c : Cpu s.cfg.width, exec (decodeComp code p dest jump) s = .next { s with cpu := c } ∧
      exec (decodeComp code p dest jump) (bitRouted s) = .next { bitRouted s with cpu := c } := by
  have heval := evaluate_bitRouted h p dest jump s.cpu
  rw [exec_decodeComp, exec_decodeComp]
  obtain ⟨e, he, hc⟩ | ⟨kind, he, hc⟩ := compute_cases code p dest jump s
  · exact ⟨_, hc, compute_ok (s := bitRouted s) (heval.trans he)⟩
  · exact ⟨_, hc, compute_error (s := bitRouted s) (heval.trans he)⟩

/-- Only a code without a mnemonic raises `NonCanonicalComp`. -/
theorem exec_ne_nonCanonicalComp (hcode : isCanonical code = true) (hf : s.cpu.fault = none) (p : PrintMode)
    (dest : Dest) (jump : Jump) (w : InstrWord) :
    exec (decodeComp code p dest jump) s ≠ .next (faultedWith s .nonCanonicalComp w) := by
  intro h
  rw [exec_decodeComp] at h
  obtain ⟨e, -, hc⟩ | ⟨kind, he, hc⟩ := compute_cases code p dest jump s
  · exact State.fault_of_eq_raise (Host.Outcome.next.inj (hc.symm.trans h)) hf
  · obtain ⟨rfl, -⟩ := State.raise_inj (Host.Outcome.next.inj (hc.symm.trans h))
    obtain ⟨-, -, hnone⟩ | ⟨hk, -⟩ | ⟨hk, -⟩ | ⟨hk, -⟩ := evaluate_eq_error he
    · exact absurd (hnone.symm.trans hcode) Bool.false_ne_true
    all_goals cases hk

end

/-- Settles O20: the check is the first one of the evaluate phase and of the reserved print mode; where it passes
nothing else depends on the policy. -/
theorem nonCanonicalFaultsUnderCanonicalOnly : Obligations.NonCanonicalFaultsUnderCanonicalOnly := by
  intro code dest jump s hcfg
  refine ⟨fun hcode => ?_, fun hcode p => ?_⟩
  · have hcheck := checkComp_error hcfg hcode
    refine ⟨fun p => ?_, ?_⟩
    · rw [← decodeComp_of_nonCanonical hcode]
      exact exec_decodeComp_of_error (evaluate_of_compFault hcheck p dest jump s.cpu)
    · have hkind : reservedPrintFault s.cfg code = .nonCanonicalComp := by rw [reservedPrintFault, hcheck]
      simp only [exec, execReservedPrint, hkind]
      rfl
  · exact ⟨exec_bitRouted (checkComp_ok (.inr hcode)) p dest jump,
      fun hf w => exec_ne_nonCanonicalComp hcode hf p dest jump w⟩

end Sys2Proof.Machine
end

section
/-! The statements of 44_jump.md: the eight jump codes under the spec's sources, and the jump under the alternative
sources of its operand and its target. -/

namespace Sys2Proof.Machine

open Claims

/-! ### The jump codes -/

section

variable {s : State} {p : PrintMode} {dest : Dest} {jumps : Bool} {out printed : Word s.cfg.width}

theorem afterWith_pc_of_taken (h : jumps = true) (target addr : Nat) :
    (afterWith s p dest out jumps target addr printed).cpu.pc = target := if_pos h

theorem afterWith_pc_of_not_taken (h : ¬ jumps = true) (target addr : Nat) :
    (afterWith s p dest out jumps target addr printed).cpu.pc = s.cpu.pc + 1 := if_neg h

end

/-- The rule of a jump code follows from its bits, from whether it reads D, and from its condition: whatever the comp code,
the jump is decided and faults by its fields alone. -/
theorem jumpRule_of_signedTaken {jump : Jump} {bits : BitVec 3} {readsD : Bool} {cond : Int → Prop}
    (hbits : jumpCode jump = bits) (hreads : readsD = true ↔ jump ≠ .never ∧ jump ≠ .jmp)
    (hcond : ∀ v, signedTaken jump v = true ↔ cond v) : JumpRule jump bits readsD cond := by
  refine ⟨fun p code dest => (fieldJump_computeWord p code dest jump).trans hbits, fun code p dest s hs hx hm hy => ?_⟩
  have hgives : Gives (decodeComp code p dest jump) p dest jump s (outOf s code) :=
    gives_decodeComp hs hx (fun h => hm (.inl h)) hy
  have hstore (h : dest.m = true) := hm (.inr h)
  have hoperand (hd : readsD = true → dest.d = false → Written s.cpu.d) (h : dest.d = false) (hn : jump ≠ .never)
      (hj : jump ≠ .jmp) : Written s.cpu.d := hd (hreads.mpr ⟨hn, hj⟩) h
  have htaken : taken s dest jump (outOf s code) = true ↔ cond (postD s dest (outOf s code)).toInt := hcond _
  refine ⟨fun hd hc ha => ?taken, fun hd hc => ?notTaken, fun hu hd => ?operand, fun hu hd hc ha hw => ?target⟩
  case taken =>
    exact ⟨_, hgives.next ⟨hstore, hoperand hd, fun h _ => ha h⟩, rfl, afterWith_pc_of_taken (htaken.mpr hc) _ _⟩
  case notTaken =>
    have hnot : ¬ taken s dest jump (outOf s code) = true := mt htaken.mp hc
    exact ⟨_, hgives.next ⟨hstore, hoperand hd, fun _ ht => absurd ht hnot⟩, rfl, afterWith_pc_of_not_taken hnot _ _⟩
  case operand =>
    obtain ⟨hread, hd⟩ := Classical.not_imp.mp hd
    obtain ⟨hdest, hw⟩ := Classical.not_imp.mp hd
    obtain ⟨hn, hj⟩ := hreads.mp hread
    exact hgives.faults.operand hu hstore hdest hn hj hw
  case target => exact hgives.faults.target hu hstore (hoperand hd) ha (htaken.mpr hc) hw

/-- Settles O30: the table of R77 gives each code its condition, and all codes but 000 and 111 read D. -/
theorem jumpCodesCompareDWithZero : Obligations.JumpCodesCompareDWithZero :=
  ⟨jumpRule_of_signedTaken rfl (by decide) fun _ => iff_of_false Bool.false_ne_true id,
    jumpRule_of_signedTaken rfl (by decide) fun _ => decide_eq_true_iff,
    jumpRule_of_signedTaken rfl (by decide) fun _ => decide_eq_true_iff,
    jumpRule_of_signedTaken rfl (by decide) fun _ => decide_eq_true_iff,
    jumpRule_of_signedTaken rfl (by decide) fun _ => decide_eq_true_iff,
    jumpRule_of_signedTaken rfl (by decide) fun _ => decide_eq_true_iff,
    jumpRule_of_signedTaken rfl (by decide) fun _ => decide_eq_true_iff,
    jumpRule_of_signedTaken rfl (by decide) fun _ => iff_of_true rfl trivial⟩

/-! ### The alternative sources of the operand and the target -/

section

variable {s : State} {dest : Dest}

/-- Under `jumpOperand = aluOut` the jump decides by the ALU result and reads no register for it (R211). -/
theorem jumpTaken_of_aluOut (hop : s.cfg.jumpOperand = .aluOut) (code : CompCode) (jump : Jump) :
    jumpTaken s.cfg dest jump (resultOf s code) s.cpu = .ok (signedTaken jump (outOf s code).toInt) :=
  jumpTaken_of_operand fun _ _ => by simp only [jumpFlags, hop, resultOf, alu_flags, outOf]

/-- Under `jumpTargetSource = preA` the target is A as it stands, whatever dest says (R212). -/
theorem jumpTarget_of_preA (hsrc : s.cfg.jumpTargetSource = .preA) (out : Word s.cfg.width) :
    jumpTarget s.cfg dest out s.cpu = readReg s.cfg.uninitRead s.cpu.a := by
  simp [jumpTarget, hsrc]

end

/-- Settles O31: the jump operand is the ALU result, so no check but those of the ALU operands and of the target is left. -/
theorem jumpTestsTheAluResult : Obligations.JumpTestsTheAluResult := by
  intro code p dest jump s hroute hpre htarget hprint hop hx hm hy ha
  have hops : OperandsOk s code dest := ⟨checkComp_ok (.inl hroute), hx, checkPreAddress_of_MOk hm, hy⟩
  have hnext := hops.next (p := p) (checkPostAddress_of_preA hpre _) (jumpTaken_of_aluOut hop code jump)
    (fun ht => jumpTarget_of_written htarget (fun h => ha h ht) _) (fun _ => printedValue_of_aluOut hprint _)
  rwa [storeAddress_of_preA hpre] at hnext

/-- Settles O32: the target of a taken jump is a read of A as it stands, which gives its value or faults. -/
theorem jumpGoesToTheOldA : Obligations.JumpGoesToTheOldA := by
  intro code p dest jump s hroute hpre hop hprint hsrc hx hm hy hd
  have hops : OperandsOk s code dest := ⟨checkComp_ok (.inl hroute), hx, checkPreAddress_of_MOk hm, hy⟩
  have hpost := checkPostAddress_of_preA (dest := dest) hpre (outOf s code)
  have hjump := jumpTaken_of_postWriteD hop hd (resultOf s code)
  have hread := jumpTarget_of_preA (dest := dest) hsrc (outOf s code)
  refine ⟨fun ha => ?_, fun hu ht hw => ?_⟩
  · have hnext := hops.next (p := p) hpost hjump (fun ht => hread.trans (readReg_of_written (ha ht)))
      (fun _ => printedValue_of_aluOut hprint _)
    rwa [storeAddress_of_preA hpre] at hnext
  · rw [resultOf_out, ht] at hjump
    exact hops.faults (afterAlu_of_targetFault hpost hjump (hread.trans (readReg_of_unwritten hu hw)))

end Sys2Proof.Machine
end

section
/-! The statements of 60_exceptions.md: what a fault records, and what each fault kind needs. -/

namespace Sys2Proof.Machine

open Claims

/-! ### Precise faults -/

theorem isFaulted_eq_false_iff {s : State} : s.isFaulted = false ↔ s.cpu.fault = none := by
  simp [State.isFaulted]

/-- Settles O25: of the three next states of an instruction only the raised one has a record that was not there before. -/
theorem faultsArePrecise : Obligations.FaultsArePrecise := by
  intro i s t hnone h hfaulted
  have hrunning : s.isFaulted = false := isFaulted_eq_false_iff.mpr hnone
  obtain ⟨imm, -, rfl⟩ | ⟨kind, rfl⟩ | ⟨code, p, dest, jump, e, -, rfl⟩ := exec_next h
  · exact absurd (hrunning.symm.trans hfaulted) Bool.false_ne_true
  · exact ⟨kind, rfl⟩
  · exact absurd (hrunning.symm.trans hfaulted) Bool.false_ne_true

/-- Settles O26: the word a fault records is the encoding of the decoded word, which is the word fetched. -/
theorem faultRecordHoldsTheFetchedWord : Obligations.FaultRecordHoldsTheFetchedWord := by
  intro s t h hfaulted
  obtain ⟨w, hrunning, hw, hexec⟩ := step_next h
  obtain ⟨kind, ht⟩ := faultsArePrecise _ s t (isFaulted_eq_false_iff.mp hrunning) hexec hfaulted
  rw [encode_decode] at ht
  exact ⟨kind, w, hw, ht, step_of_faulted hfaulted⟩

/-! ### What each kind needs -/

/-- Only with W = 64 can a value lie outside RAM (R51). -/
theorem width_eq_w64_of_range {W : Width} {v : Word W} (h : ramSize ≤ v.toNat) : W = .w64 := by
  cases hW : W with
  | w16 => exact absurd (toNat_lt_ramSize hW v) (Nat.not_lt.mpr h)
  | w64 => rfl

/-- The reserved print mode raises the fault of the comp code only where R199's check is enabled (R234). -/
theorem compDecode_of_reservedPrintFault {cfg : Config} {comp : CompCode}
    (h : reservedPrintFault cfg comp = .nonCanonicalComp) : cfg.compDecode = .canonicalOnly := by
  cases hcfg : cfg.compDecode with
  | bitRouted =>
    rw [reservedPrintFault, checkComp_ok (.inl hcfg)] at h
    cases h
  | canonicalOnly => rfl

/-- Settles O27: a fault is one of the two of the reserved print mode, or has the cause of the check that failed in the
evaluate phase; the check of A′ is off where the store address is A_pre. -/
theorem faultKindsNeedTheirConditions : Obligations.FaultKindsNeedTheirConditions := by
  intro i s kind w hnone hpre h
  obtain ⟨comp, dest, jump, rfl, hk⟩ | ⟨code, p, dest, jump, he⟩ := exec_raises hnone h
  · obtain hcomp | hreserved := reservedPrintFault_cases s.cfg comp
    · obtain rfl := hk.trans hcomp
      exact ⟨nofun, nofun, nofun, fun _ => compDecode_of_reservedPrintFault hcomp⟩
    · obtain rfl := hk.trans hreserved
      exact ⟨nofun, fun _ => ⟨comp, dest, jump, rfl⟩, nofun, nofun⟩
  · obtain ⟨rfl, hcfg, -⟩ | ⟨rfl, huninit⟩ | ⟨rfl, -, hrange⟩ | ⟨-, -, hpost, -⟩ := evaluate_eq_error he
    · exact ⟨nofun, nofun, nofun, fun _ => hcfg⟩
    · exact ⟨nofun, nofun, fun _ => huninit, nofun⟩
    · exact ⟨fun _ => ⟨width_eq_w64_of_range hrange, hrange⟩, nofun, nofun, nofun⟩
    · exact absurd ((storesAtPostA_of_preA hpre).symm.trans hpost) Bool.false_ne_true

end Sys2Proof.Machine
end

section
/-! The statement of 70_reset_and_hazards.md: where a step stops. -/

namespace Sys2Proof.Machine

open Claims

/-- ROM has no word at PC exactly where PC ≥ L (R253). -/
theorem fetch_eq_none_iff {s : State} : s.fetch = none ↔ s.rom.length ≤ s.cpu.pc := List.getElem?_eq_none_iff

theorem fetch_eq_some_lt {s : State} {w : InstrWord} (h : s.fetch = some w) : s.cpu.pc < s.rom.length :=
  (List.getElem?_eq_some_iff.mp h).1

theorem isFaulted_eq_true_iff {s : State} : s.isFaulted = true ↔ s.cpu.fault ≠ none := Option.isSome_iff_ne_none

/-- Settles O6: the three things a step can do are the three outcomes, and an instruction that runs answers a next state. -/
theorem stepStopsExactlyAtTheEnds : Obligations.StepStopsExactlyAtTheEnds := by
  intro s
  obtain ⟨hf, hstep⟩ | ⟨hf, hw, hstep⟩ | ⟨w, hf, hw, hstep⟩ := step_cases s
  · have hfault := isFaulted_eq_true_iff.mp hf
    simp [hstep, hfault]
  · have hnone := isFaulted_eq_false_iff.mp hf
    have hend := fetch_eq_none_iff.mp hw
    simp [hstep, hnone, hend]
  · have hnone := isFaulted_eq_false_iff.mp hf
    have hpc := fetch_eq_some_lt hw
    obtain ⟨t, ht⟩ := everyInstructionAnswersNext (decode s.cfg.printCode w) s
    simp [hstep, ht, hnone, hpc]

end Sys2Proof.Machine
end

section
/-! The statement about the model's choice of log 1: with `uninitRead = value` the marks of the registers matter to nothing
but the registers in a fault record. -/

namespace Sys2Proof.Machine

open Claims

/-- What an instruction runs, the same in every state: `@imm`, the reserved print mode, or the shared datapath (R141). -/
theorem exec_forall_cases (i : Instr) :
    (∃ imm, i = .addr imm) ∨ (∃ comp dest jump, i = .reservedPrint comp dest jump) ∨
      ∃ code p dest jump, ∀ s, exec i s = compute code p dest jump s := by
  cases hwf : i.wf with
  | true =>
    obtain h | h | ⟨code, p, dest, jump, rfl⟩ := wf_cases i hwf
    · exact .inl h
    · exact .inr (.inl h)
    · exact .inr (.inr ⟨code, p, dest, jump, exec_decodeComp code p dest jump⟩)
  | false =>
    unfold Instr.wf at hwf
    split at hwf
    · exact .inr (.inr ⟨_, _, _, _, fun _ => rfl⟩)
    · cases hwf

theorem readReg_of_value {W : Width} {u : UninitRead} (hu : u = .value) (r : Reg W) : readReg u r = .ok r.value :=
  readReg_ok (by simp [readable, hu])

theorem Reg.update_value_congr {W : Width} {r r' : Reg W} (h : r.value = r'.value) (b : Bool) (v : Word W) :
    (r.update b v).value = (r'.update b v).value := by
  cases b with
  | true => rfl
  | false => exact h

/-! ### Registers that hold the same values -/

section

variable {cfg : Config} {c : Cpu cfg.width} {a d : Reg cfg.width} (hu : cfg.uninitRead = .value)
  (ha : a.value = c.a.value) (hd : d.value = c.d.value)
include hu

include hd in
theorem xOperand_ignores_marks (code : CompCode) :
    xOperand cfg code { c with a := a, d := d } = xOperand cfg code c := by
  simp only [xOperand, readReg_of_value hu, hd]

include ha in
theorem checkPreAddress_ignores_marks (code : CompCode) (dest : Dest) :
    checkPreAddress cfg code dest { c with a := a, d := d } = checkPreAddress cfg code dest c := by
  simp only [checkPreAddress, readReg_of_value hu, ha]

include ha in
theorem yOperand_ignores_marks (code : CompCode) :
    yOperand cfg code { c with a := a, d := d } = yOperand cfg code c := by
  simp only [yOperand, preAddress, readReg_of_value hu, ha]

include hd in
theorem readPostD_ignores_marks (dest : Dest) (out : Word cfg.width) :
    readPostD cfg dest out { c with a := a, d := d } = readPostD cfg dest out c := by
  simp only [readPostD, readReg_of_value hu, hd]

include hd in
theorem jumpTaken_ignores_marks (dest : Dest) (jump : Jump) (r : AluResult cfg.width) :
    jumpTaken cfg dest jump r { c with a := a, d := d } = jumpTaken cfg dest jump r c := by
  simp only [jumpTaken, jumpFlags, readPostD_ignores_marks hu hd]

include ha in
theorem nextPc_ignores_marks (dest : Dest) (taken : Bool) (out : Word cfg.width) :
    nextPc cfg dest taken out { c with a := a, d := d } = nextPc cfg dest taken out c := by
  simp only [nextPc, jumpTarget, readReg_of_value hu, ha]

include hd in
theorem printEvent_ignores_marks (p : PrintMode) (dest : Dest) (out : Word cfg.width) :
    printEvent cfg p dest out { c with a := a, d := d } = printEvent cfg p dest out c := by
  simp only [printEvent, printedValue, readPostD_ignores_marks hu hd]

include ha hd in
/-- The evaluate phase asks for a mark only where it reads a register, and every read gives the value held. -/
theorem evaluate_ignores_marks (code : CompCode) (p : PrintMode) (dest : Dest) (jump : Jump) :
    evaluate cfg code p dest jump { c with a := a, d := d } = evaluate cfg code p dest jump c := by
  simp only [evaluate, xOperand_ignores_marks hu hd, checkPreAddress_ignores_marks hu ha, yOperand_ignores_marks hu ha,
    jumpTaken_ignores_marks hu hd, nextPc_ignores_marks hu ha, printEvent_ignores_marks hu hd, storeAddress,
    preAddress, ha]

end

/-! ### The faults that are left -/

theorem evaluate_ne_uninitFault {cfg : Config} (hu : cfg.uninitRead = .value) (code : CompCode) (p : PrintMode)
    (dest : Dest) (jump : Jump) (c : Cpu cfg.width) :
    evaluate cfg code p dest jump c ≠ .error .uninitRegisterRead := by
  intro h
  obtain ⟨hk, -⟩ | ⟨-, hfault, -⟩ | ⟨hk, -⟩ | ⟨hk, -⟩ := evaluate_eq_error h
  · cases hk
  · cases hu.symm.trans hfault
  · cases hk
  · cases hk

theorem reservedPrintFault_ne_uninit (cfg : Config) (comp : CompCode) :
    reservedPrintFault cfg comp ≠ .uninitRegisterRead := by
  intro h
  obtain hk | hk := reservedPrintFault_cases cfg comp <;> cases hk.symm.trans h

/-! ### The marked state -/

section

variable {s : State}

theorem evaluate_marked (hu : s.cfg.uninitRead = .value) (code : CompCode) (p : PrintMode) (dest : Dest) (jump : Jump) :
    evaluate s.cfg code p dest jump (marked s).cpu = evaluate s.cfg code p dest jump s.cpu :=
  evaluate_ignores_marks (a := ⟨s.cpu.a.value, true⟩) (d := ⟨s.cpu.d.value, true⟩) hu rfl rfl code p dest jump

theorem commit_marked_a_value (dest : Dest) (e : Effect s.cfg.width) :
    (s.cpu.commit dest e).a.value = ((marked s).cpu.commit dest e).a.value :=
  Reg.update_value_congr (r := s.cpu.a) (r' := (marked s).cpu.a) rfl dest.a e.out

theorem commit_marked_d_value (dest : Dest) (e : Effect s.cfg.width) :
    (s.cpu.commit dest e).d.value = ((marked s).cpu.commit dest e).d.value :=
  Reg.update_value_congr (r := s.cpu.d) (r' := (marked s).cpu.d) rfl dest.d e.out

end

/-- Settles O29: `@imm` and the reserved print mode read no register, and the datapath evaluates to the same effect or the
same fault, so that the marked state takes the same values or the same fault kind. -/
theorem heldValuesCountAsWritten : Obligations.HeldValuesCountAsWritten := by
  intro i s hu hnone
  obtain ⟨imm, rfl⟩ | ⟨comp, dest, jump, rfl⟩ | ⟨code, p, dest, jump, hx⟩ := exec_forall_cases i
  · refine ⟨_, _, exec_addr imm s, exec_addr imm (marked s), rfl, rfl, rfl, rfl, rfl, rfl, ?_⟩
    simp [hnone]
  · exact ⟨_, _, rfl, rfl, rfl, rfl, rfl, rfl, rfl, rfl,
      fun h => reservedPrintFault_ne_uninit s.cfg comp (Option.some.inj h)⟩
  · rw [hx, hx]
    have heval := evaluate_marked hu code p dest jump
    obtain ⟨e, he, hc⟩ | ⟨kind, he, hc⟩ := compute_cases code p dest jump s
    · refine ⟨_, _, hc, compute_ok (s := marked s) (heval.trans he), commit_marked_a_value dest e,
        commit_marked_d_value dest e, rfl, rfl, rfl, rfl, ?_⟩
      simp [hnone]
    · exact ⟨_, _, hc, compute_error (s := marked s) (heval.trans he), rfl, rfl, rfl, rfl, rfl, rfl,
        fun h => evaluate_ne_uninitFault hu code p dest jump s.cpu (he.trans (congrArg _ (Option.some.inj h)))⟩

end Sys2Proof.Machine
end
